-- ==== Sys2Proof/Word.lean ====
section
/-! DEFINITION. The word types of the machine (spec/00_scope.md R11, R13; spec/30_encoding.md R68). -/

namespace Sys2Proof

/-- An 8-bit value: a general register, a timer, a memory cell, the immediate `nn` (R13, R68). -/
abbrev Byte := BitVec 8

/-- A 16-bit value: I, PC, a stack entry, an instruction word (R13, R65). -/
abbrev Word := BitVec 16

/-- The 12-bit address field `nnn` (R68). -/
abbrev Addr := BitVec 12

/-- The index of a general register V0..VF, 0..15 (spec/10_state.md R20). -/
abbrev Reg := Fin 16

/-- The row count `n` of Dxyn, 0..15 (R68). -/
abbrev RowCount := Fin 16

/-- A logical key, 0..15 (spec/44_timers_keys.md R150). -/
abbrev Key := Fin 16

/-- Register index 15, the flags register (spec/10_state.md R21). -/
abbrev VF : Reg := 15

end Sys2Proof
end

