-- ==== Sys2Proof/Syntax.lean ====
section
/-! DEFINITION. The 35 instructions, one constructor per row of spec/opcode_table.json (spec/30_encoding.md R75), in
the table's order. A field that names a register is a `Reg`, the row count a `RowCount`, `nn` a byte, `nnn` 12 bits
(R68). -/

namespace Sys2Proof

/-- One instruction (R75). -/
inductive Instr where
  /-- 00E0 CLS (R139). -/
  | cls
  /-- 00EE RET (R85). -/
  | ret
  /-- 0nnn SYS nnn (R86). -/
  | sys (nnn : Addr)
  /-- 1nnn JP nnn (R87). -/
  | jp (nnn : Addr)
  /-- 2nnn CALL nnn (R88). -/
  | call (nnn : Addr)
  /-- 3xnn SE Vx, nn (R89). -/
  | seImm (x : Reg) (nn : Byte)
  /-- 4xnn SNE Vx, nn (R90). -/
  | sneImm (x : Reg) (nn : Byte)
  /-- 5xy0 SE Vx, Vy (R91). -/
  | seReg (x y : Reg)
  /-- 9xy0 SNE Vx, Vy (R92). -/
  | sneReg (x y : Reg)
  /-- 6xnn LD Vx, nn (R100). -/
  | ldImm (x : Reg) (nn : Byte)
  /-- 7xnn ADD Vx, nn (R101). -/
  | addImm (x : Reg) (nn : Byte)
  /-- 8xy0 LD Vx, Vy (R102). -/
  | ldReg (x y : Reg)
  /-- 8xy1 OR Vx, Vy (R103). -/
  | orReg (x y : Reg)
  /-- 8xy2 AND Vx, Vy (R104). -/
  | andReg (x y : Reg)
  /-- 8xy3 XOR Vx, Vy (R105). -/
  | xorReg (x y : Reg)
  /-- 8xy4 ADD Vx, Vy (R106). -/
  | addReg (x y : Reg)
  /-- 8xy5 SUB Vx, Vy (R107). -/
  | subReg (x y : Reg)
  /-- 8xy6 SHR Vx, Vy (R108). -/
  | shrReg (x y : Reg)
  /-- 8xy7 SUBN Vx, Vy (R109). -/
  | subnReg (x y : Reg)
  /-- 8xyE SHL Vx, Vy (R110). -/
  | shlReg (x y : Reg)
  /-- Annn LD I, nnn (R120). -/
  | ldI (nnn : Addr)
  /-- Bnnn JP V0, nnn (R93). -/
  | jpV0 (nnn : Addr)
  /-- Cxnn RND Vx, nn (R111). -/
  | rnd (x : Reg) (nn : Byte)
  /-- Dxyn DRW Vx, Vy, n (R140). -/
  | drw (x y : Reg) (n : RowCount)
  /-- Ex9E SKP Vx (R151). -/
  | skp (x : Reg)
  /-- ExA1 SKNP Vx (R152). -/
  | sknp (x : Reg)
  /-- Fx07 LD Vx, DT (R153). -/
  | ldVxDt (x : Reg)
  /-- Fx0A LD Vx, K (R154). -/
  | ldVxK (x : Reg)
  /-- Fx15 LD DT, Vx (R155). -/
  | ldDtVx (x : Reg)
  /-- Fx18 LD ST, Vx (R156). -/
  | ldStVx (x : Reg)
  /-- Fx1E ADD I, Vx (R121). -/
  | addI (x : Reg)
  /-- Fx29 LD F, Vx (R122). -/
  | ldF (x : Reg)
  /-- Fx33 LD B, Vx (R123). -/
  | ldB (x : Reg)
  /-- Fx55 LD [I], Vx (R124). -/
  | ldMemVx (x : Reg)
  /-- Fx65 LD Vx, [I] (R125). -/
  | ldVxMem (x : Reg)
  deriving DecidableEq, Repr

end Sys2Proof
end

