-- ==== Sys2Proof/WellFormed.lean ====
section
/-! DEFINITION. Which instructions some word encodes: all but SYS with the two values of nnn whose words are CLS and
RET (spec/30_encoding.md R74, R75 row 3 "not 00E0, 00EE"). -/

namespace Sys2Proof

/-- Whether `nnn` is a value the SYS row admits: rows 1 and 2 (00E0, 00EE) take priority over 0nnn (R74). -/
def sysFieldOk (nnn : Addr) : Bool := nnn != 0x0E0#12 && nnn != 0x0EE#12

/-- The instruction has an encoding of its own (R75). -/
def Instr.wellFormed : Instr → Bool
  | .cls | .ret => true
  | .sys nnn => sysFieldOk nnn
  | .jp _ | .call _ | .ldI _ | .jpV0 _ => true
  | .seImm _ _ | .sneImm _ _ | .ldImm _ _ | .addImm _ _ | .rnd _ _ => true
  | .seReg _ _ | .sneReg _ _ | .ldReg _ _ | .orReg _ _ | .andReg _ _ | .xorReg _ _ | .addReg _ _ | .subReg _ _
  | .shrReg _ _ | .subnReg _ _ | .shlReg _ _ => true
  | .drw _ _ _ => true
  | .skp _ | .sknp _ | .ldVxDt _ | .ldVxK _ | .ldDtVx _ | .ldStVx _ | .addI _ | .ldF _ | .ldB _ | .ldMemVx _
  | .ldVxMem _ => true

end Sys2Proof
end

