-- ==== Sys2Proof/Decode.lean ====
section
/-! DEFINITION. Decode (spec/30_encoding.md R65 to R82), total on every word and every list of bytes, and the encoder
(R83). -/

namespace Sys2Proof

/-- Why the decoder gives no instruction. -/
inductive DecodeError where
  /-- The word matches no row of the opcode map (R76, R77). -/
  | unrecognised (w : Word)
  /-- Fewer than two bytes were given (R65: every instruction is one 16-bit word). -/
  | truncated
  deriving DecidableEq, Repr

/-- `w[hi:lo]`: the unsigned value of bits hi down to lo, inclusive (spec/00_scope.md R12). -/
def slice (w : Word) (hi lo : Nat) : Nat := w.toNat / 2 ^ lo % 2 ^ (hi + 1 - lo)

/-- `x = w[11:8]` (R68). -/
def fieldX (w : Word) : Reg := Fin.ofNat 16 (slice w 11 8)

/-- `y = w[7:4]` (R68). -/
def fieldY (w : Word) : Reg := Fin.ofNat 16 (slice w 7 4)

/-- `n = w[3:0]` (R68). -/
def fieldN (w : Word) : RowCount := Fin.ofNat 16 (slice w 3 0)

/-- `nn = w[7:0]` (R68). -/
def fieldNn (w : Word) : Byte := BitVec.ofNat 8 (slice w 7 0)

/-- `nnn = w[11:0]` (R68). -/
def fieldNnn (w : Word) : Addr := BitVec.ofNat 12 (slice w 11 0)

/-- Family 0 dispatches on the whole word; 00E0 and 00EE take priority over 0nnn (R70, R74). -/
def decodeFamily0 (w : Word) : Except DecodeError Instr :=
  if w = 0x00E0#16 then .ok .cls
  else if w = 0x00EE#16 then .ok .ret
  else .ok (.sys (fieldNnn w))

/-- Family 8 dispatches on the low nibble (R70, R74). -/
def decodeFamily8 (w : Word) : Except DecodeError Instr :=
  match slice w 3 0 with
  | 0x0 => .ok (.ldReg (fieldX w) (fieldY w))
  | 0x1 => .ok (.orReg (fieldX w) (fieldY w))
  | 0x2 => .ok (.andReg (fieldX w) (fieldY w))
  | 0x3 => .ok (.xorReg (fieldX w) (fieldY w))
  | 0x4 => .ok (.addReg (fieldX w) (fieldY w))
  | 0x5 => .ok (.subReg (fieldX w) (fieldY w))
  | 0x6 => .ok (.shrReg (fieldX w) (fieldY w))
  | 0x7 => .ok (.subnReg (fieldX w) (fieldY w))
  | 0xE => .ok (.shlReg (fieldX w) (fieldY w))
  | _ => .error (.unrecognised w)

/-- Family E dispatches on the low byte (R70, R74). -/
def decodeFamilyE (w : Word) : Except DecodeError Instr :=
  match slice w 7 0 with
  | 0x9E => .ok (.skp (fieldX w))
  | 0xA1 => .ok (.sknp (fieldX w))
  | _ => .error (.unrecognised w)

/-- Family F dispatches on the low byte (R70, R74). -/
def decodeFamilyF (w : Word) : Except DecodeError Instr :=
  match slice w 7 0 with
  | 0x07 => .ok (.ldVxDt (fieldX w))
  | 0x0A => .ok (.ldVxK (fieldX w))
  | 0x15 => .ok (.ldDtVx (fieldX w))
  | 0x18 => .ok (.ldStVx (fieldX w))
  | 0x1E => .ok (.addI (fieldX w))
  | 0x29 => .ok (.ldF (fieldX w))
  | 0x33 => .ok (.ldB (fieldX w))
  | 0x55 => .ok (.ldMemVx (fieldX w))
  | 0x65 => .ok (.ldVxMem (fieldX w))
  | _ => .error (.unrecognised w)

/-- The decode function (R74). The high nibble selects the family (R69). 5xy0 and 9xy0 need a low nibble of 0
(DESIGN CHOICE of the spec, D18, log 23). The last line is reached by no word: a nibble is below 16. -/
def decode (w : Word) : Except DecodeError Instr :=
  match slice w 15 12 with
  | 0x0 => decodeFamily0 w
  | 0x1 => .ok (.jp (fieldNnn w))
  | 0x2 => .ok (.call (fieldNnn w))
  | 0x3 => .ok (.seImm (fieldX w) (fieldNn w))
  | 0x4 => .ok (.sneImm (fieldX w) (fieldNn w))
  | 0x5 => if slice w 3 0 = 0 then .ok (.seReg (fieldX w) (fieldY w)) else .error (.unrecognised w)
  | 0x6 => .ok (.ldImm (fieldX w) (fieldNn w))
  | 0x7 => .ok (.addImm (fieldX w) (fieldNn w))
  | 0x8 => decodeFamily8 w
  | 0x9 => if slice w 3 0 = 0 then .ok (.sneReg (fieldX w) (fieldY w)) else .error (.unrecognised w)
  | 0xA => .ok (.ldI (fieldNnn w))
  | 0xB => .ok (.jpV0 (fieldNnn w))
  | 0xC => .ok (.rnd (fieldX w) (fieldNn w))
  | 0xD => .ok (.drw (fieldX w) (fieldY w) (fieldN w))
  | 0xE => decodeFamilyE w
  | 0xF => decodeFamilyF w
  | _ => .error (.unrecognised w)

/-- The word of two consecutive bytes, big-endian: `first * 256 + second` (spec/20_memory.md R53). -/
def wordOfBytes (first second : Byte) : Word := BitVec.ofNat 16 (first.toNat * 256 + second.toNat)

/-- Decoding a list of bytes: one instruction and the bytes after it (R65: the length is always two bytes). -/
def decodeBytes : List Byte → Except DecodeError (Instr × List Byte)
  | b0 :: b1 :: rest =>
    match decode (wordOfBytes b0 b1) with
    | .ok i => .ok (i, rest)
    | .error e => .error e
  | _ => .error .truncated

/-- Format XY and XYN: `(opcode << 12) | (x << 8) | (y << 4) | n` (R83). The four nibbles do not overlap, so the sum is
that bitwise or. -/
def encodeXYN (op : Nat) (x y : Reg) (n : Nat) : Word :=
  BitVec.ofNat 16 (op * 4096 + x.val * 256 + y.val * 16 + n)

/-- Format XK and X: `(opcode << 12) | (x << 8) | nn` (R83). -/
def encodeXK (op : Nat) (x : Reg) (nn : Byte) : Word :=
  BitVec.ofNat 16 (op * 4096 + x.val * 256 + nn.toNat)

/-- Format A: `(opcode << 12) | nnn` (R83). -/
def encodeA (op : Nat) (nnn : Addr) : Word := BitVec.ofNat 16 (op * 4096 + nnn.toNat)

/-- The word of an instruction (R75, R83). -/
def encode : Instr → Word
  | .cls => 0x00E0#16
  | .ret => 0x00EE#16
  | .sys nnn => encodeA 0x0 nnn
  | .jp nnn => encodeA 0x1 nnn
  | .call nnn => encodeA 0x2 nnn
  | .seImm x nn => encodeXK 0x3 x nn
  | .sneImm x nn => encodeXK 0x4 x nn
  | .seReg x y => encodeXYN 0x5 x y 0x0
  | .sneReg x y => encodeXYN 0x9 x y 0x0
  | .ldImm x nn => encodeXK 0x6 x nn
  | .addImm x nn => encodeXK 0x7 x nn
  | .ldReg x y => encodeXYN 0x8 x y 0x0
  | .orReg x y => encodeXYN 0x8 x y 0x1
  | .andReg x y => encodeXYN 0x8 x y 0x2
  | .xorReg x y => encodeXYN 0x8 x y 0x3
  | .addReg x y => encodeXYN 0x8 x y 0x4
  | .subReg x y => encodeXYN 0x8 x y 0x5
  | .shrReg x y => encodeXYN 0x8 x y 0x6
  | .subnReg x y => encodeXYN 0x8 x y 0x7
  | .shlReg x y => encodeXYN 0x8 x y 0xE
  | .ldI nnn => encodeA 0xA nnn
  | .jpV0 nnn => encodeA 0xB nnn
  | .rnd x nn => encodeXK 0xC x nn
  | .drw x y n => encodeXYN 0xD x y n.val
  | .skp x => encodeXK 0xE x 0x9E#8
  | .sknp x => encodeXK 0xE x 0xA1#8
  | .ldVxDt x => encodeXK 0xF x 0x07#8
  | .ldVxK x => encodeXK 0xF x 0x0A#8
  | .ldDtVx x => encodeXK 0xF x 0x15#8
  | .ldStVx x => encodeXK 0xF x 0x18#8
  | .addI x => encodeXK 0xF x 0x1E#8
  | .ldF x => encodeXK 0xF x 0x29#8
  | .ldB x => encodeXK 0xF x 0x33#8
  | .ldMemVx x => encodeXK 0xF x 0x55#8
  | .ldVxMem x => encodeXK 0xF x 0x65#8

/-- The bytes of an instruction as memory holds them, the high byte at the lower address (R53). -/
def encodeBytes (i : Instr) : List Byte :=
  [BitVec.ofNat 8 (slice (encode i) 15 8), BitVec.ofNat 8 (slice (encode i) 7 0)]

/-- What the decoder reads from a word numbered as spec/opcode_table.json numbers it: bit 0 is the least significant bit
of the one 16-bit word, stored high byte first (R53, R67). Every row is 16 bits wide, so `nbits` adds nothing. -/
def decodeTableWord (_nbits w : Nat) : Option Instr :=
  match decodeBytes [BitVec.ofNat 8 (w / 256), BitVec.ofNat 8 w] with
  | .ok (i, _) => some i
  | .error _ => none

end Sys2Proof
end

