-- ==== Sys2Proof/Config.lean ====
section
/-! DEFINITION. What is fixed for the machine (spec/00_scope.md R11), the launch parameters of a run (spec/10_state.md
R42), the inputs of one outer iteration (spec/60_exceptions.md R177) and the free values. -/

namespace Sys2Proof.Config

/-- MEM_SIZE (R11). -/
abbrev memSize : Nat := 4096

/-- PROGRAM_OFFSET (R11, R52). -/
abbrev programOffset : Nat := 0x200

/-- MAX_PROGRAM (R11, R201). -/
abbrev maxProgram : Nat := 3584

/-- The size of the font region (R11, R47). -/
abbrev fontSize : Nat := 80

/-- GLYPH_BYTES (R11, R48). -/
abbrev glyphBytes : Nat := 5

/-- FB_WIDTH (R11, R135). -/
abbrev fbWidth : Nat := 64

/-- FB_HEIGHT (R11, R135). -/
abbrev fbHeight : Nat := 32

end Sys2Proof.Config

namespace Sys2Proof

/-- The parameters fixed at reset (R11, R42 `Config`). They are held in the machine's state as plain data that no step
changes, so that a statement over every state is a statement over every setting.
`initMem` lists the bytes of INIT_MEM from address 0 up; an address past the end of the list reads 0, so every 4096-byte
image is some list and `[]` is the all-zero image (DESIGN CHOICE, log 3). -/
structure LaunchParams where
  quirks : Bool
  keywaitStallsTimers : Bool
  font : Vector Byte 80
  initMem : List Byte
  deriving DecidableEq, Repr

/-- The inputs of one outer iteration (R177). The elapsed time is the quotient `elapsedNum / elapsedDen` in
milliseconds: every non-negative rational is such a quotient, and none is negative (a zero denominator counts as 0;
DESIGN CHOICE, log 19). -/
structure IterInput where
  quit : Bool
  keyPressed : Option Key
  keyEvent : Option Key
  rand : Byte
  elapsedNum : Nat
  elapsedDen : Nat
  deriving DecidableEq, Repr, Inhabited

/-- The inputs of the n-th iteration where none is scheduled in the state: FREE ("Every input is free", R177;
"a free input of the cycle", spec/41_alu.md R117). No body: nothing can be proved of its values (log 1, log 22). -/
opaque Config.freeInput : Nat → IterInput

end Sys2Proof
end

