-- ==== Sys2Proof/Machine/Font.lean ====
section
/-! DEFINITION. The default FONT table (spec/20_memory.md R49) and the launch parameters the reset state names. -/

namespace Sys2Proof.Machine

/-- The default of FONT, 16 glyphs of 5 bytes, glyph d at 5d (R48, R49). PRESUMED: the conventional CHIP-8 font, which
the spec itself marks as general knowledge (D5, log 4). -/
def defaultFont : Vector Byte 80 := #v[
  0xF0, 0x90, 0x90, 0x90, 0xF0,  -- 0
  0x20, 0x60, 0x20, 0x20, 0x70,  -- 1
  0xF0, 0x10, 0xF0, 0x80, 0xF0,  -- 2
  0xF0, 0x10, 0xF0, 0x10, 0xF0,  -- 3
  0x90, 0x90, 0xF0, 0x10, 0x10,  -- 4
  0xF0, 0x80, 0xF0, 0x10, 0xF0,  -- 5
  0xF0, 0x80, 0xF0, 0x90, 0xF0,  -- 6
  0xF0, 0x10, 0x20, 0x40, 0x40,  -- 7
  0xF0, 0x90, 0xF0, 0x90, 0xF0,  -- 8
  0xF0, 0x90, 0xF0, 0x10, 0xF0,  -- 9
  0xF0, 0x90, 0xF0, 0x90, 0x90,  -- A
  0xE0, 0x90, 0xE0, 0x90, 0xE0,  -- B
  0xF0, 0x80, 0x80, 0x80, 0xF0,  -- C
  0xE0, 0x90, 0x90, 0x90, 0xE0,  -- D
  0xF0, 0x80, 0xF0, 0x80, 0xF0,  -- E
  0xF0, 0x80, 0xF0, 0x80, 0x80]  -- F

/-- The launch parameters of the fixed reset state. DESIGN CHOICE: QUIRKS false and INIT_MEM all zero (log 3, log 5);
KEYWAIT_STALLS_TIMERS false is the default of R11; PRESUMED font (log 4). -/
def defaultParams : LaunchParams :=
  { quirks := false, keywaitStallsTimers := false, font := defaultFont, initMem := [] }

end Sys2Proof.Machine
end

