-- ==== Sys2Proof/Machine/State.lean ====
section
/-! DEFINITION. The machine's state as plain data (spec/10_state.md), the fault record (spec/60_exceptions.md R166,
R167), the outputs (R192), the reasons a step can stop, and the state after reset (spec/70_reset_and_hazards.md R200). -/

namespace Sys2Proof.Machine

/-- The fault kinds (R166). -/
inductive FaultKind where
  | outOfBoundsFetch
  | unrecognisedOpcode
  | emptyCallStack
  | programTooLarge
  | outOfBoundsAccess
  | addressOverflow
  deriving DecidableEq, Repr

/-- The fault record, "the only state a fault saves" (R167). Its code follows from its kind (`FaultKind.code`).
`pc` is absent for ProgramTooLarge, which no cycle raises (DEDUCED, log 9). -/
structure FaultRecord where
  kind : FaultKind
  pc   : Option Word
  word : Option Word
  info : Option Nat
  deriving DecidableEq, Repr

/-- The engine's status (spec/10_state.md R36). -/
inductive EngineStatus where
  | running
  | halted (r : FaultRecord)
  deriving DecidableEq, Repr

/-- The result of a cycle that raised no fault (spec/30_encoding.md R71). -/
inductive CycleResult where
  | completed (redraw : Bool)
  | blocked
  deriving DecidableEq, Repr

/-- The three ways a run ends (R186). -/
inductive RunEnd where
  | quit
  | halted (r : FaultRecord)
  | noStart (r : FaultRecord)
  deriving DecidableEq, Repr

/-- The framebuffer: 32 rows of 64 cells, true for lit (spec/10_state.md R34). -/
abbrev Framebuffer := Vector (Vector Bool 64) 32

/-- What leaves the block (R192). -/
inductive Output where
  | present (grid : Framebuffer)
  | emitTone
  | runEnd (e : RunEnd)
  deriving DecidableEq, Repr

/-- The state (R42). The fields from `result` on are the model's own (log 1, 8, 26, 29): they carry what passes between
the engine, the pacer and the environment. -/
structure State where
  /-- V0..VF (R20). -/
  v : Vector Byte 16
  /-- The address register I (R24). -/
  i : Word
  /-- PC (R26). -/
  pc : Word
  /-- The call-return stack, top = last element (R29, R42). -/
  stack : List Word
  /-- DT (R31). -/
  dt : Byte
  /-- ST (R32). -/
  st : Byte
  /-- Memory (spec/20_memory.md R45): the cells that differ from the reset image, by rising address. -/
  mem : List Host.Cell
  /-- The framebuffer (R34). -/
  fb : Framebuffer
  /-- The engine status (R36). -/
  status : EngineStatus
  /-- The pending-redraw flag (R37). -/
  redrawPending : Bool
  /-- The lag counter in milliseconds (R38). -/
  lag : Rat
  /-- QUIRKS, KEYWAIT_STALLS_TIMERS, FONT, INIT_MEM (R11, R42), which no step changes. -/
  params : LaunchParams
  /-- The latest cycle's result (R71). -/
  result : CycleResult
  /-- The run has ended by the quit input (R185). -/
  hasQuit : Bool
  /-- The inputs of the coming iterations, oldest first (R177). -/
  inputs : List IterInput
  /-- How many iterations have run. -/
  iterations : Nat
  /-- What the latest iteration put out, oldest first (R192). -/
  outputs : List Output
  deriving DecidableEq, Repr

/-- Why the machine stops. A fault of the spec is no constructor here: it takes the machine to a next state whose status
is halted (R165, log 7). -/
inductive Fault where
  /-- Raised by `step` alone, when the run has already ended in the way named: "A cycle of a Halted engine does not
  exist" (R36), and an ended run has no further iteration (R185, R186). Safe: there is nothing to do. -/
  | runEnded (e : RunEnd)
  deriving DecidableEq, Repr

/-- Why an instruction has no meaning. -/
inductive Refusal where
  /-- Raised by `exec` for an instruction the model gives no meaning (none is left). Safe. -/
  | notModelled (mnemonic : String)
  deriving DecidableEq, Repr

/-- What a meaning answers. -/
abbrev Out := Host.Outcome State Fault Refusal

/-- The state reset establishes for given launch parameters, before a program is loaded (R41, R200). V, I, DT, ST and
the stack are 0 and empty by the spec's decision D3 (DESIGN CHOICE, log 2), the pacer's state by D16 (DESIGN CHOICE,
log 21); memory lists nothing, so FONT and INIT_MEM are read (R47). -/
def State.initial (p : LaunchParams) : State :=
  { v := Vector.replicate 16 0, i := 0, pc := 0x200, stack := [], dt := 0, st := 0, mem := [],
    fb := Vector.replicate 32 (Vector.replicate 64 false), status := .running, redrawPending := false, lag := 0,
    params := p, result := .completed false, hasQuit := false, inputs := [], iterations := 0, outputs := [] }

/-- The machine right after reset, with the launch parameters of `defaultParams` (log 3, 4, 5) and no program. -/
def State.reset : State := State.initial defaultParams

end Sys2Proof.Machine
end

