-- ==== Sys2Proof/Machine/Ops.lean ====
section
/-! DEFINITION. The named operations over memory, registers, PC and the stack (spec/00_scope.md R14, spec/20_memory.md
R56), and raising a fault, the one shared operation (spec/60_exceptions.md R165). There is no return from a fault (R170). -/

namespace Sys2Proof.Machine

/-! ### Memory -/

namespace Memory

/-- What a cell reads as at reset, and so while it is not listed: FONT at 0..79, INIT_MEM elsewhere (R47, R51). -/
def resetByte (p : LaunchParams) (a : Nat) : Byte :=
  if h : a < 80 then p.font[a] else p.initMem.getD a 0

/-- The byte at address `a`: "the byte last written (or the reset value)" (R58). -/
def read (p : LaunchParams) : List Host.Cell → Nat → Byte
  | [], a => resetByte p a
  | c :: m, a => if c.1 = a then c.2 else read p m a

/-- The list without its entries for `a`. -/
def erase (m : List Host.Cell) (a : Nat) : List Host.Cell := m.filter fun c => c.1 != a

/-- The list with an entry for `a` put before the first higher address. -/
def insert : List Host.Cell → Nat → Byte → List Host.Cell
  | [], a, b => [(a, b)]
  | c :: m, a, b => if a < c.1 then (a, b) :: c :: m else c :: insert m a b

/-- Writing one cell (R58: only the addressed cell changes). A cell set back to its reset value is not listed. -/
def write (p : LaunchParams) (m : List Host.Cell) (a : Nat) (b : Byte) : List Host.Cell :=
  if b = resetByte p a then erase m a else insert (erase m a) a b

/-- The canonical form: addresses strictly rising and inside the address space (R45), and no entry equal to what the
address reads as unlisted. -/
abbrev wf (p : LaunchParams) (m : List Host.Cell) : Prop :=
  m.Pairwise (fun c d => c.1 < d.1) ∧ ∀ c ∈ m, c.1 < Config.memSize ∧ c.2 ≠ resetByte p c.1

end Memory

/-- `M[a]`: the one read of a byte of memory (R14). -/
def State.byteAt (s : State) (a : Nat) : Byte := Memory.read s.params s.mem a

/-- `M[a] <- b`. -/
def State.setByte (s : State) (a : Nat) (b : Byte) : State := { s with mem := Memory.write s.params s.mem a b }

/-- `M[a], M[a+1], ... <- bs`, in ascending order (R54). -/
def State.setBytes : State → Nat → List Byte → State
  | s, _, [] => s
  | s, a, b :: bs => State.setBytes (s.setByte a b) (a + 1) bs

/-- The bounds check of MemRead and MemWrite (R56): the least out-of-range address of the access to `n` bytes from `a`,
if there is one. That an access past the end fails is the spec's decision D6 (DESIGN CHOICE, log 11). -/
def firstOutside (a n : Nat) : Option Nat :=
  if n > 0 ∧ a + n - 1 ≥ Config.memSize then some (max a Config.memSize) else none

/-- `MemRead(a, n)`: the bytes, or the out-of-range address (R56). -/
def State.memRead (s : State) (a n : Nat) : Except Nat (List Byte) :=
  match firstOutside a n with
  | some bad => .error bad
  | none => .ok ((List.range n).map fun k => s.byteAt (a + k))

/-- `MemWrite(a, n, bs)`: the whole access is checked before any byte moves (R56). -/
def State.memWrite (s : State) (a : Nat) (bs : List Byte) : Except Nat State :=
  match firstOutside a bs.length with
  | some bad => .error bad
  | none => .ok (s.setBytes a bs)

/-! ### Registers -/

/-- `V[x]` (R14). -/
def State.reg (s : State) (x : Reg) : Byte := s.v[x.val]

/-- `V[x] <- b` (R14). No register is hard-wired (R20). -/
def State.setReg (s : State) (x : Reg) (b : Byte) : State := { s with v := s.v.set x.val b }

/-- `V[0], ..., V[x]` as a list (R124). -/
def State.regsUpTo (s : State) (x : Reg) : List Byte := s.v.toList.take (x.val + 1)

/-- `for i in 0 .. x: V[i] <- bs[i]` (R125). -/
def State.setRegsUpTo (s : State) (x : Reg) (bs : List Byte) : State :=
  { s with v := Vector.ofFn fun r : Fin 16 => if r.val ≤ x.val then bs.getD r.val 0 else s.v[r.val] }

/-- `I <- a`. -/
def State.setI (s : State) (a : Word) : State := { s with i := a }

/-- `DT <- b`. -/
def State.setDt (s : State) (b : Byte) : State := { s with dt := b }

/-- `ST <- b`. -/
def State.setSt (s : State) (b : Byte) : State := { s with st := b }

/-! ### PC and the call-return stack -/

/-- The default advance `PC <- PC + 2` (R72). -/
def State.advance (s : State) : State := { s with pc := s.pc + 2 }

/-- A skip: `PC <- PC + 4` when the condition holds, `PC <- PC + 2` otherwise (R72, R94). -/
def State.skipIf (s : State) (c : Bool) : State := { s with pc := if c then s.pc + 4 else s.pc + 2 }

/-- `PC <- target`, no default advance (R72). -/
def State.jump (s : State) (target : Word) : State := { s with pc := target }

/-- `Push(a)`: a push never fails (R29). -/
def State.push (s : State) (a : Word) : State := { s with stack := s.stack ++ [a] }

/-- `Pop()`: the top entry and the state without it; nothing where the stack is empty (R14, R30). -/
def State.pop (s : State) : Option (Word × State) :=
  match s.stack.getLast? with
  | none => none
  | some a => some (a, { s with stack := s.stack.dropLast })

/-! ### The cycle's result and faults -/

/-- `redraw <- true` (R14, R71). -/
def State.signalRedraw (s : State) : State := { s with result := .completed true }

/-- `return Blocked` (R71): nothing changes but the cycle's result. -/
def State.block (s : State) : State := { s with result := .blocked }

/-- The code of a fault kind (R166; the numbers are the spec's own, D19, log 24). -/
def FaultKind.code : FaultKind → Nat
  | .outOfBoundsFetch => 1
  | .unrecognisedOpcode => 2
  | .emptyCallStack => 3
  | .programTooLarge => 4
  | .outOfBoundsAccess => 5
  | .addressOverflow => 6

/-- The code of a record (R167). -/
def FaultRecord.code (r : FaultRecord) : Nat := r.kind.code

/-- `raise F(info)` inside a cycle (R165): the status becomes Halted(record), everything else stays as it was at the
start of the cycle, and PC still addresses the instruction. Transfers control nowhere (R169). -/
def State.raise (s : State) (kind : FaultKind) (word : Option Word) (info : Option Nat) : State :=
  { s with status := .halted { kind := kind, pc := some s.pc, word := word, info := info } }

/-- A fault an instruction raises records its own word (R167), which is the one fetched (DEDUCED, log 10). -/
def State.raiseIn (s : State) (ins : Instr) (kind : FaultKind) (info : Option Nat) : State :=
  s.raise kind (some (encode ins)) info

end Sys2Proof.Machine
end

