-- ==== Sys2Proof/Machine/Flags.lean ====
section
/-! DEFINITION. Every flag computation of the spec (spec/10_state.md R23): the carry of 8xy4, the no-borrow of 8xy5 and
8xy7, the bit shifted out of 8xy6 and 8xyE, the collision of Dxyn; and the order of the result and flag writes
(spec/41_alu.md R113). Arithmetic is exact, then narrowed (R112). -/

namespace Sys2Proof.Machine

/-- `1 if c else 0`. -/
def flagByte (c : Bool) : Byte := if c then 1 else 0

/-- The unreduced sum, 0..510 (R106). -/
def exactSum (a b : Byte) : Nat := a.toNat + b.toNat

/-- `sum mod 256` (R101, R106). -/
def sumByte (a b : Byte) : Byte := BitVec.ofNat 8 (exactSum a b)

/-- Carry: the unreduced sum is at least 256 (R106). -/
def carryFlag (a b : Byte) : Byte := flagByte (decide (exactSum a b ≥ 256))

/-- The unreduced difference `a - b`, -255..255 (R107). -/
def exactDiff (a b : Byte) : Int := (a.toNat : Int) - (b.toNat : Int)

/-- `diff mod 256` (R107, R109). -/
def diffByte (a b : Byte) : Byte := BitVec.ofInt 8 (exactDiff a b)

/-- No borrow: the unreduced difference is at least 0 (R107, R109, R115). -/
def noBorrowFlag (a b : Byte) : Byte := flagByte (decide (exactDiff a b ≥ 0))

/-- `s >> 1` (R108). -/
def shrByte (s : Byte) : Byte := s >>> 1

/-- `s & 1`, the bit a right shift moves out (R108). -/
def shrFlag (s : Byte) : Byte := s &&& 1

/-- `(s << 1) mod 256` (R110). -/
def shlByte (s : Byte) : Byte := s <<< 1

/-- `(s >> 7) & 1`, the bit a left shift moves out (R110). -/
def shlFlag (s : Byte) : Byte := (s >>> 7) &&& 1

/-- The writes of 8xy4, 8xy5 and 8xy7 in the order listed: the result, then VF, so VF ends as the flag when x = 15
(R113; the spec's decision D9, DESIGN CHOICE, log 14). -/
def State.resultThenFlag (s : State) (x : Reg) (result flag : Byte) : State := (s.setReg x result).setReg VF flag

/-- The writes of 8xy6 and 8xyE in the order listed: VF, then the result, so VF ends as the shifted value when x = 15
(R113; D9, log 14). -/
def State.flagThenResult (s : State) (x : Reg) (result flag : Byte) : State := (s.setReg VF flag).setReg x result

end Sys2Proof.Machine
end

