-- ==== Sys2Proof/Machine/Operands.lean ====
section
/-! DEFINITION. The operand forms: widening of `nnn` and of a register, the quirk-dependent shift source, the keys and
the random byte of the iteration, the decimal digits of Fx33. -/

namespace Sys2Proof.Machine

/-- `zext_16(nnn)` (spec/30_encoding.md R68). -/
def addrWord (nnn : Addr) : Word := nnn.setWidth 16

/-- `zext_16(nnn) + V[0]`, no reduction: at most 0x10FE (spec/40_control_flow.md R93). -/
def offsetTarget (s : State) (nnn : Addr) : Word := BitVec.ofNat 16 (nnn.toNat + (s.reg 0).toNat)

/-- The inputs of the coming iteration: the oldest one scheduled, or free ones (spec/60_exceptions.md R177, log 1). -/
def State.input (s : State) : IterInput :=
  match s.inputs with
  | inp :: _ => inp
  | [] => Config.freeInput s.iterations

/-- The wall-clock time of an iteration in milliseconds (R177). -/
def elapsedMs (inp : IterInput) : Rat := mkRat inp.elapsedNum inp.elapsedDen

/-- The source of 8xy6 and 8xyE: Vy, or Vx when QUIRKS is true (spec/41_alu.md R108, R110). -/
def State.shiftSource (s : State) (x y : Reg) : Byte := if s.params.quirks then s.reg x else s.reg y

/-- `key_pressed = some(k) and k = V[x]` (spec/44_timers_keys.md R151, R152); a value of 16 or more names no key. -/
def State.keyMatches (s : State) (x : Reg) : Bool :=
  match s.input.keyPressed with
  | some k => k.val == (s.reg x).toNat
  | none => false

/-- A key number as a register's value (R154). -/
def keyByte (k : Key) : Byte := BitVec.ofNat 8 k.val

/-- The random draw of the cycle (spec/41_alu.md R117). -/
def State.draw8 (s : State) : Byte := s.input.rand

/-- `I + V[x]`, unreduced (spec/42_index_memory.md R121). -/
def exactIPlus (s : State) (x : Reg) : Nat := s.i.toNat + (s.reg x).toNat

/-- `V[x] * 5`, the glyph base offset, 0..1275 (R122). -/
def glyphAddress (b : Byte) : Word := BitVec.ofNat 16 (b.toNat * Config.glyphBytes)

/-- The decimal digits of a byte, hundreds first (R123; the order is the spec's decision D10 from general knowledge,
PRESUMED, log 15). -/
def bcdDigits (b : Byte) : List Byte :=
  [BitVec.ofNat 8 (b.toNat / 100), BitVec.ofNat 8 (b.toNat / 10 % 10), BitVec.ofNat 8 (b.toNat % 10)]

/-- I after Fx55 and Fx65: `I + x + 1` when QUIRKS is false, I itself otherwise (R124, R125). -/
def State.iAfterBlock (s : State) (x : Reg) : Word :=
  if s.params.quirks then s.i else BitVec.ofNat 16 (s.i.toNat + x.val + 1)

end Sys2Proof.Machine
end

