-- ==== Sys2Proof/Machine/Alu.lean ====
section
/-! DEFINITION. Register loads, arithmetic, logic, shifts and random (spec/41_alu.md). Every operand is read before any
write (R113). -/

namespace Sys2Proof.Machine

/-- 6xnn LD Vx, nn (R100). -/
def execLdImm (x : Reg) (nn : Byte) (s : State) : Out := .next (s.setReg x nn).advance

/-- 7xnn ADD Vx, nn: VF is not written (R101). -/
def execAddImm (x : Reg) (nn : Byte) (s : State) : Out := .next (s.setReg x (sumByte (s.reg x) nn)).advance

/-- 8xy0 LD Vx, Vy (R102). -/
def execLdReg (x y : Reg) (s : State) : Out := .next (s.setReg x (s.reg y)).advance

/-- 8xy1 OR Vx, Vy (R103). -/
def execOrReg (x y : Reg) (s : State) : Out := .next (s.setReg x (s.reg x ||| s.reg y)).advance

/-- 8xy2 AND Vx, Vy (R104). -/
def execAndReg (x y : Reg) (s : State) : Out := .next (s.setReg x (s.reg x &&& s.reg y)).advance

/-- 8xy3 XOR Vx, Vy (R105). -/
def execXorReg (x y : Reg) (s : State) : Out := .next (s.setReg x (s.reg x ^^^ s.reg y)).advance

/-- 8xy4 ADD Vx, Vy (R106). -/
def execAddReg (x y : Reg) (s : State) : Out :=
  .next (s.resultThenFlag x (sumByte (s.reg x) (s.reg y)) (carryFlag (s.reg x) (s.reg y))).advance

/-- 8xy5 SUB Vx, Vy (R107). -/
def execSubReg (x y : Reg) (s : State) : Out :=
  .next (s.resultThenFlag x (diffByte (s.reg x) (s.reg y)) (noBorrowFlag (s.reg x) (s.reg y))).advance

/-- 8xy6 SHR Vx, Vy (R108). -/
def execShrReg (x y : Reg) (s : State) : Out :=
  .next (s.flagThenResult x (shrByte (s.shiftSource x y)) (shrFlag (s.shiftSource x y))).advance

/-- 8xy7 SUBN Vx, Vy, the same in both QUIRKS settings (R109, spec/30_encoding.md R81). -/
def execSubnReg (x y : Reg) (s : State) : Out :=
  .next (s.resultThenFlag x (diffByte (s.reg y) (s.reg x)) (noBorrowFlag (s.reg y) (s.reg x))).advance

/-- 8xyE SHL Vx, Vy (R110). -/
def execShlReg (x y : Reg) (s : State) : Out :=
  .next (s.flagThenResult x (shlByte (s.shiftSource x y)) (shlFlag (s.shiftSource x y))).advance

/-- Cxnn RND Vx, nn (R111): the draw is the iteration's free input (R117). -/
def execRnd (x : Reg) (nn : Byte) (s : State) : Out := .next (s.setReg x (s.draw8 &&& nn)).advance

end Sys2Proof.Machine
end

