-- ==== Sys2Proof/Machine/ControlFlow.lean ====
section
/-! DEFINITION. Control flow: return, no-op, jumps, call, skips (spec/40_control_flow.md). -/

namespace Sys2Proof.Machine

/-- 00EE RET (R85). -/
def execRet (s : State) : Out :=
  match s.pop with
  | none => .next (s.raiseIn .ret .emptyCallStack none)
  | some (a, s') => .next (s'.jump a)

/-- 0nnn SYS nnn: a no-op for every nnn (R86, spec/30_encoding.md R78). -/
def execSys (_nnn : Addr) (s : State) : Out := .next s.advance

/-- 1nnn JP nnn (R87). -/
def execJp (nnn : Addr) (s : State) : Out := .next (s.jump (addrWord nnn))

/-- 2nnn CALL nnn (R88). -/
def execCall (nnn : Addr) (s : State) : Out := .next ((s.push (s.pc + 2)).jump (addrWord nnn))

/-- 3xnn SE Vx, nn (R89). -/
def execSeImm (x : Reg) (nn : Byte) (s : State) : Out := .next (s.skipIf (s.reg x == nn))

/-- 4xnn SNE Vx, nn (R90). -/
def execSneImm (x : Reg) (nn : Byte) (s : State) : Out := .next (s.skipIf (s.reg x != nn))

/-- 5xy0 SE Vx, Vy (R91). -/
def execSeReg (x y : Reg) (s : State) : Out := .next (s.skipIf (s.reg x == s.reg y))

/-- 9xy0 SNE Vx, Vy (R92). -/
def execSneReg (x y : Reg) (s : State) : Out := .next (s.skipIf (s.reg x != s.reg y))

/-- Bnnn JP V0, nnn (R93). -/
def execJpV0 (nnn : Addr) (s : State) : Out := .next (s.jump (offsetTarget s nnn))

end Sys2Proof.Machine
end

