-- ==== Sys2Proof/Machine/Display.lean ====
section
/-! DEFINITION. The framebuffer, clear and draw (spec/43_display.md). -/

namespace Sys2Proof.Machine

/-- All cells unlit. -/
def blankFramebuffer : Framebuffer := Vector.replicate 32 (Vector.replicate 64 false)

/-- `FB[r][c]` (spec/00_scope.md R14). -/
def cell (fb : Framebuffer) (r : Fin 32) (c : Fin 64) : Bool := fb[r.val][c.val]

/-- `FB[r][c] <- b`. -/
def setCell (fb : Framebuffer) (r : Fin 32) (c : Fin 64) (b : Bool) : Framebuffer :=
  fb.set r.val (fb[r.val].set c.val b)

/-- The row a sprite row falls on: `(y0 + row) mod 32` (R136, R138). -/
def targetRow (y0 row : Nat) : Fin 32 := Fin.ofNat 32 (y0 + row)

/-- The column a sprite bit falls on: `(x0 + col) mod 64` (R136, R138). -/
def targetCol (x0 col : Nat) : Fin 64 := Fin.ofNat 64 (x0 + col)

/-- Bit `col` of a sprite byte, the most significant first: `(byte >> (7 - col)) & 1` (R136). -/
def spriteBit (byte : Byte) (col : Nat) : Bool := byte.getLsbD (7 - col)

/-- One sprite bit onto one cell: a set bit over a lit cell collides, and the cell is toggled by the bit (R136, R137). -/
def plot (p : Framebuffer × Bool) (r : Fin 32) (c : Fin 64) (bit : Bool) : Framebuffer × Bool :=
  (setCell p.1 r c (cell p.1 r c ^^ bit), p.2 || (bit && cell p.1 r c))

/-- One sprite row, columns 0 to 7 (R136). -/
def drawRow (x0 : Nat) (r : Fin 32) (byte : Byte) (p : Framebuffer × Bool) : Framebuffer × Bool :=
  [0, 1, 2, 3, 4, 5, 6, 7].foldl (fun q col => plot q r (targetCol x0 col) (spriteBit byte col)) p

/-- The sprite rows from row number `row` on (R136). -/
def drawRows (x0 y0 : Nat) : Nat → List Byte → Framebuffer × Bool → Framebuffer × Bool
  | _, [], p => p
  | row, byte :: rest, p => drawRows x0 y0 (row + 1) rest (drawRow x0 (targetRow y0 row) byte p)

/-- The draw function: the new framebuffer and whether any cell collided (R136, R137). -/
def draw (fb : Framebuffer) (x0 y0 : Nat) (sprite : List Byte) : Framebuffer × Bool :=
  drawRows x0 y0 0 sprite (fb, false)

/-- `FB <- fb`. -/
def State.setFb (s : State) (fb : Framebuffer) : State := { s with fb := fb }

/-- 00E0 CLS (R139): signals redraw always (R141). -/
def execCls (s : State) : Out := .next (s.setFb blankFramebuffer).signalRedraw.advance

/-- Dxyn DRW Vx, Vy, n (R140): the coordinates are read before VF is written; signals redraw always (R141). -/
def execDrw (x y : Reg) (n : RowCount) (s : State) : Out :=
  match s.memRead s.i.toNat n.val with
  | .error a => .next (s.raiseIn (.drw x y n) .outOfBoundsAccess (some a))
  | .ok sprite =>
    .next (((s.setFb (draw s.fb (s.reg x).toNat (s.reg y).toNat sprite).1).setReg VF
      (flagByte (draw s.fb (s.reg x).toNat (s.reg y).toNat sprite).2)).signalRedraw).advance

end Sys2Proof.Machine
end

