-- ==== Sys2Proof/Machine/IndexMemory.lean ====
section
/-! DEFINITION. The address register and the memory transfers (spec/42_index_memory.md). -/

namespace Sys2Proof.Machine

/-- Annn LD I, nnn (R120). -/
def execLdI (nnn : Addr) (s : State) : Out := .next (s.setI (addrWord nnn)).advance

/-- Fx1E ADD I, Vx: a sum above 0xFFFF raises AddressOverflow (R121, R127; the spec's decision D7, log 12). -/
def execAddI (x : Reg) (s : State) : Out :=
  if exactIPlus s x > 0xFFFF then .next (s.raiseIn (.addI x) .addressOverflow (some (exactIPlus s x)))
  else .next (s.setI (BitVec.ofNat 16 (exactIPlus s x))).advance

/-- Fx29 LD F, Vx: V[x] is not masked (R122). -/
def execLdF (x : Reg) (s : State) : Out := .next (s.setI (glyphAddress (s.reg x))).advance

/-- Fx33 LD B, Vx (R123). -/
def execLdB (x : Reg) (s : State) : Out :=
  match s.memWrite s.i.toNat (bcdDigits (s.reg x)) with
  | .error a => .next (s.raiseIn (.ldB x) .outOfBoundsAccess (some a))
  | .ok s' => .next s'.advance

/-- Fx55 LD [I], Vx (R124). -/
def execLdMemVx (x : Reg) (s : State) : Out :=
  match s.memWrite s.i.toNat (s.regsUpTo x) with
  | .error a => .next (s.raiseIn (.ldMemVx x) .outOfBoundsAccess (some a))
  | .ok s' => .next (s'.setI (s.iAfterBlock x)).advance

/-- Fx65 LD Vx, [I] (R125). -/
def execLdVxMem (x : Reg) (s : State) : Out :=
  match s.memRead s.i.toNat (x.val + 1) with
  | .error a => .next (s.raiseIn (.ldVxMem x) .outOfBoundsAccess (some a))
  | .ok bs => .next ((s.setRegsUpTo x bs).setI (s.iAfterBlock x)).advance

end Sys2Proof.Machine
end

