-- ==== Sys2Proof/Machine/KeysTimers.lean ====
section
/-! DEFINITION. The keypad and timer instructions (spec/44_timers_keys.md). -/

namespace Sys2Proof.Machine

/-- Ex9E SKP Vx (R151). Never blocks (conflict C8). -/
def execSkp (x : Reg) (s : State) : Out := .next (s.skipIf (s.keyMatches x))

/-- ExA1 SKNP Vx (R152). -/
def execSknp (x : Reg) (s : State) : Out := .next (s.skipIf (!s.keyMatches x))

/-- Fx07 LD Vx, DT (R153). -/
def execLdVxDt (x : Reg) (s : State) : Out := .next (s.setReg x s.dt).advance

/-- Fx0A LD Vx, K: completes on a key-down event of its own iteration, else the cycle is Blocked and nothing changes
(R154, R157; D11 and D12, log 16, log 17). -/
def execLdVxK (x : Reg) (s : State) : Out :=
  match s.input.keyEvent with
  | some k => .next (s.setReg x (keyByte k)).advance
  | none => .next s.block

/-- Fx15 LD DT, Vx (R155). -/
def execLdDtVx (x : Reg) (s : State) : Out := .next (s.setDt (s.reg x)).advance

/-- Fx18 LD ST, Vx: the write itself emits no tone (R156, R181). -/
def execLdStVx (x : Reg) (s : State) : Out := .next (s.setSt (s.reg x)).advance

end Sys2Proof.Machine
end

