-- ==== Sys2Proof/Machine/Cycle.lean ====
section
/-! DEFINITION. Fetch and the engine's cycle `step()` (spec/30_encoding.md R66, R71). -/

namespace Sys2Proof.Machine

/-- Fetch: the big-endian word at PC, PC+1, or nothing where PC + 1 is outside memory (R66, spec/20_memory.md R53). PC
needs no alignment (R55; D8, log 13). -/
def State.fetch (s : State) : Option Word :=
  if s.pc.toNat + 1 ≥ Config.memSize then none
  else some (wordOfBytes (s.byteAt s.pc.toNat) (s.byteAt (s.pc.toNat + 1)))

/-- What a cycle starts from: `redraw <- false` (R71), and no output of the iteration yet. -/
def State.beginCycle (s : State) : State := { s with result := .completed false, outputs := [] }

/-- One fetch-decode-execute cycle (R71), the checks in the order of spec/60_exceptions.md R168: the fetch bound, decode,
the instruction's own. -/
def cycle (s : State) : Out :=
  match s.fetch with
  | none => .next (s.raise .outOfBoundsFetch none none)
  | some w =>
    match decode w with
    | .error _ => .next (s.raise .unrecognisedOpcode (some w) none)
    | .ok ins => exec ins s

end Sys2Proof.Machine
end

