-- ==== Sys2Proof/Machine/Pacer.lean ====
section
/-! DEFINITION. The pacer: the tick, the drain and the outer iteration (spec/60_exceptions.md R177 to R186). -/

namespace Sys2Proof.Machine

/-- FRAME_MS, exactly 1000/60 = 50/3 milliseconds (spec/00_scope.md R11; exact by D14, log 19). -/
def frameMs : Rat := mkRat 50 3

/-- Put out one event (R192). -/
def State.emit (s : State) (o : Output) : State := { s with outputs := s.outputs ++ [o] }

/-- The presentation part of a tick (R180): only a pending redraw presents, and it is then no longer pending. -/
def presentPending (s : State) : State :=
  if s.redrawPending then { s.emit (.present s.fb) with redrawPending := false } else s

/-- The sound part of a tick (R180, R182): the tone sounds at the tick that takes ST from 1 to 0 (R181; D13, log 18). -/
def tickSound (s : State) : State :=
  if s.st = 0 then s
  else if s.st = 1 then { s.emit .emitTone with st := s.st - 1 }
  else { s with st := s.st - 1 }

/-- The delay part of a tick (R180, R182). -/
def tickDelay (s : State) : State := if s.dt = 0 then s else { s with dt := s.dt - 1 }

/-- One tick, in the source's order (R180). -/
def tick (s : State) : State := tickDelay (tickSound (presentPending s))

/-- The inner loop `while lag >= FRAME_MS` (R178), with a bound on its rounds so that the recursion is structural. -/
def drain : Nat → State → State
  | 0, s => s
  | k + 1, s => if frameMs ≤ s.lag then drain k (tick { s with lag := s.lag - frameMs }) else s

/-- How many whole frames a lag holds: the rounds the loop makes (R183). -/
def ticksDue (lag : Rat) : Nat := (lag / frameMs).floor.toNat

/-- Accumulate the iteration's elapsed time and drain the lag (R178). -/
def accumulate (ms : Rat) (s : State) : State := drain (ticksDue (s.lag + ms)) { s with lag := s.lag + ms }

/-- A cycle that reported a framebuffer change sets the pending-redraw flag (R179). -/
def noteRedraw (s : State) : State :=
  match s.result with
  | .completed true => { s with redrawPending := true }
  | .completed false => s
  | .blocked => s

/-- Whether the iteration returns before accumulating: a Blocked cycle under KEYWAIT_STALLS_TIMERS (R184). -/
def State.stalls (s : State) : Bool := s.result == .blocked && s.params.keywaitStallsTimers

/-- What the pacer does after a cycle (R178). After a fault: no redraw-flag update, no accumulation and no tick; the
record is surfaced (R165, R192; D15, log 20). -/
def pace (ms : Rat) (s : State) : State :=
  match s.status with
  | .halted r => s.emit (.runEnd (.halted r))
  | .running => if s.stalls then noteRedraw s else accumulate ms (noteRedraw s)

/-- How the run has ended, if it has (R186): a halted engine, a load that failed, or a quit. -/
def State.runEnd (s : State) : Option RunEnd :=
  match s.status with
  | .halted r => if r.kind = .programTooLarge then some (.noStart r) else some (.halted r)
  | .running => if s.hasQuit then some .quit else none

/-- The iteration's inputs are used up, whatever it did (log 1). -/
def State.endIteration (s : State) : State := { s with inputs := s.inputs.tail, iterations := s.iterations + 1 }

/-- The quit input ends the run with the state as it stands: no cycle and no tick (R185; D22, log 8). -/
def quitRun (s : State) : State := { s with hasQuit := true, outputs := [.runEnd .quit] }

/-- One outer iteration (R178), made only while the run has not ended (R36, R186). -/
def iterate (s : State) : Out :=
  match s.runEnd with
  | some e => .fault (.runEnded e)
  | none =>
    if s.input.quit then .next (quitRun s).endIteration
    else
      match cycle s.beginCycle with
      | .next t => .next (pace (elapsedMs s.input) t).endIteration
      | .fault f => .fault f
      | .refused r => .refused r

end Sys2Proof.Machine
end

