-- ==== Sys2Proof/Machine/Step.lean ====
section
/-! DEFINITION. The machine's step: one outer iteration of the pacer (spec/00_scope.md R9), and placing an instruction
where the next step fetches. -/

namespace Sys2Proof.Machine

/-- One step of the machine (R9, spec/60_exceptions.md R178). -/
def step (s : State) : Host.Outcome State Fault Refusal := iterate s

/-- An iteration in which the environment does nothing: no quit, no key, draw 0, no time. -/
def quietInput : IterInput :=
  { quit := false, keyPressed := none, keyEvent := none, rand := 0, elapsedNum := 0, elapsedDen := 1 }

/-- The state with the word stored at PC, PC+1, high byte first (spec/20_memory.md R53), and with the coming iteration's
inputs holding no quit, without which the step fetches nothing (R178): the input scheduled there keeps its other values,
and where none is scheduled the quiet one is (log 6). -/
def State.withFetchWord (s : State) (_nbits w : Nat) : State :=
  { (s.setByte s.pc.toNat (BitVec.ofNat 8 (w / 256))).setByte (s.pc.toNat + 1) (BitVec.ofNat 8 w) with
    inputs := { s.inputs.headD quietInput with quit := false } :: s.inputs.tail }

end Sys2Proof.Machine
end

