-- ==== Sys2Proof/Machine/Loader.lean ====
section
/-! DEFINITION. The program loader and reset with a program (spec/70_reset_and_hazards.md R200, R201). -/

namespace Sys2Proof.Machine

/-- The record of a load that fails (R167, R201): it carries the program's length. -/
def tooLargeRecord (len : Nat) : FaultRecord :=
  { kind := .programTooLarge, pc := none, word := none, info := some len }

/-- `load(program)`: copied verbatim from 0x200 on, or ProgramTooLarge where it is longer than 3584 bytes (R201). The
failed load halts the engine before any cycle (DEDUCED, log 9). -/
def load (program : List Byte) (s : State) : State :=
  if program.length > Config.maxProgram then
    { s with status := .halted (tooLargeRecord program.length),
             outputs := [.runEnd (.noStart (tooLargeRecord program.length))] }
  else s.setBytes Config.programOffset program

/-- `reset(program, QUIRKS, KEYWAIT_STALLS_TIMERS, FONT, INIT_MEM)` (R200): the memory writes are in the spec's order,
INIT_MEM, FONT, program; the other writes do not overlap them. -/
def boot (p : LaunchParams) (program : List Byte) : State := load program (State.initial p)

end Sys2Proof.Machine
end

