-- ==== Sys2Proof/Safety.lean ====
section
/-! DEFINITION. What counts as a sound state of a run, and the terms the statements use: which fault an instruction
raises, which registers and special state it may write, and which cells a sprite covers. Each is written from the rules
of spec/ and not from the meanings. -/

namespace Sys2Proof.Safety

open Sys2Proof.Machine

/-! ### The invariant -/

/-- What the fault record of a halted engine holds, for each kind (spec/60_exceptions.md R166, R167), `pc` being the PC
of the halted state, which still addresses the faulting instruction (R165). The record of ProgramTooLarge is DEDUCED
(log 9); OutOfBoundsAccess and AddressOverflow are the spec's decisions D6 (log 11) and D7 (log 12). -/
def recordOk (pc : Word) (r : FaultRecord) : Prop :=
  match r.kind with
  | .outOfBoundsFetch => r.pc = some pc ∧ 4095 ≤ pc.toNat ∧ r.word = none ∧ r.info = none
  | .unrecognisedOpcode =>
    r.pc = some pc ∧ (∃ w, r.word = some w ∧ decode w = .error (.unrecognised w)) ∧ r.info = none
  | .emptyCallStack => r.pc = some pc ∧ r.word = some 0x00EE#16 ∧ r.info = none
  | .programTooLarge => r.pc = none ∧ r.word = none ∧ ∃ len, r.info = some len ∧ 3584 < len
  | .outOfBoundsAccess => r.pc = some pc ∧ (∃ w, r.word = some w) ∧ ∃ a, r.info = some a ∧ 4096 ≤ a
  | .addressOverflow => r.pc = some pc ∧ (∃ w, r.word = some w) ∧ ∃ v, r.info = some v ∧ 0xFFFF < v

/-- The invariant every step keeps: memory keeps its canonical form (the model's own, log 27) inside the 4096 cells
(R45); the lag is below one frame (R38; exact by D14, log 19); PC and the return addresses stay in the range R28 and R85
give; a halted engine holds a record of the form of R167; a run ends in one way only (R186; the quit mark is the model's
own, log 8). -/
structure Inv (s : State) : Prop where
  mem : Memory.wf s.params s.mem
  lag_nonneg : 0 ≤ s.lag
  lag_lt : s.lag < 50 / 3
  pc_le : s.pc.toNat ≤ 0x10FE
  stack_le : ∀ a ∈ s.stack, a.toNat ≤ 4096
  record : ∀ r, s.status = .halted r → recordOk s.pc r
  one_end : s.hasQuit = true → s.status = .running

/-- The run goes on and its coming iteration runs a cycle (R178). -/
def Continues (s : State) : Prop := s.runEnd = none ∧ s.input.quit = false

/-! ### Frames -/

/-- Every byte of memory reads as before. -/
def MemKept (s t : State) : Prop := ∀ a, t.byteAt a = s.byteAt a

/-- Every byte of memory outside the `n` bytes from `a` reads as before. -/
def MemKeptOutside (a n : Nat) (s t : State) : Prop := ∀ b, b < a ∨ a + n ≤ b → t.byteAt b = s.byteAt b

/-- Every general register but those listed is unchanged. -/
def RegsKeptBut (ds : List Reg) (s t : State) : Prop := ∀ r, r ∉ ds → t.reg r = s.reg r

/-- From `s` to `t` only the listed general registers and PC change, and PC has advanced by 2: every other field is the
same, and so every byte of memory. -/
def OnlyRegs (ds : List Reg) (s t : State) : Prop :=
  RegsKeptBut ds s t ∧ t = { s with v := t.v, pc := t.pc } ∧ t.pc = s.pc + 2 ∧ MemKept s t

/-- From `s` to `t` only PC changes. -/
def OnlyPc (s t : State) : Prop := t = { s with pc := t.pc } ∧ MemKept s t

/-- The general registers an instruction writes (spec/10_state.md R22). -/
def destRegs : Instr → List Reg
  | .cls | .ret | .sys _ | .jp _ | .call _ | .ldI _ | .jpV0 _ => []
  | .seImm _ _ | .sneImm _ _ | .seReg _ _ | .sneReg _ _ => []
  | .ldImm x _ | .addImm x _ | .rnd x _ => [x]
  | .ldReg x _ | .orReg x _ | .andReg x _ | .xorReg x _ => [x]
  | .addReg x _ | .subReg x _ | .subnReg x _ | .shrReg x _ | .shlReg x _ => [x, VF]
  | .drw _ _ _ => [VF]
  | .skp _ | .sknp _ | .ldDtVx _ | .ldStVx _ | .addI _ | .ldF _ | .ldB _ | .ldMemVx _ => []
  | .ldVxDt x | .ldVxK x => [x]
  | .ldVxMem x => (List.finRange 16).filter fun r => decide (r ≤ x)

/-- I is written by Annn, Fx1E, Fx29, and, when QUIRKS is false, by Fx55 and Fx65 (R25). -/
def writesI (quirks : Bool) : Instr → Bool
  | .ldI _ | .addI _ | .ldF _ => true
  | .ldMemVx _ | .ldVxMem _ => !quirks
  | .cls | .ret | .sys _ | .jp _ | .call _ | .seImm _ _ | .sneImm _ _ | .seReg _ _ | .sneReg _ _ | .ldImm _ _
  | .addImm _ _ | .ldReg _ _ | .orReg _ _ | .andReg _ _ | .xorReg _ _ | .addReg _ _ | .subReg _ _ | .shrReg _ _
  | .subnReg _ _ | .shlReg _ _ | .jpV0 _ | .rnd _ _ | .drw _ _ _ | .skp _ | .sknp _ | .ldVxDt _ | .ldVxK _ | .ldDtVx _
  | .ldStVx _ | .ldB _ => false

/-- The state with another QUIRKS setting. -/
def withQuirks (q : Bool) (s : State) : State := { s with params := { s.params with quirks := q } }

/-! ### Faults -/

/-- The check of its own that an instruction fails in a state, with the record's info: the causes of R166 (codes 3, 5
and 6) and the info of R167. Every other instruction raises no fault. -/
def faultOf (i : Instr) (s : State) : Option (FaultKind × Option Nat) :=
  match i with
  | .ret => if s.stack = [] then some (.emptyCallStack, none) else none
  | .drw _ _ n =>
    if 0 < n.val ∧ 4096 ≤ s.i.toNat + n.val - 1 then some (.outOfBoundsAccess, some (max s.i.toNat 4096)) else none
  | .ldB _ => if 4096 ≤ s.i.toNat + 2 then some (.outOfBoundsAccess, some (max s.i.toNat 4096)) else none
  | .ldMemVx x | .ldVxMem x =>
    if 4096 ≤ s.i.toNat + x.val then some (.outOfBoundsAccess, some (max s.i.toNat 4096)) else none
  | .addI x =>
    if 0xFFFF < s.i.toNat + (s.reg x).toNat then some (.addressOverflow, some (s.i.toNat + (s.reg x).toNat)) else none
  | .cls | .sys _ | .jp _ | .call _ | .seImm _ _ | .sneImm _ _ | .seReg _ _ | .sneReg _ _ | .ldImm _ _ | .addImm _ _
  | .ldReg _ _ | .orReg _ _ | .andReg _ _ | .xorReg _ _ | .addReg _ _ | .subReg _ _ | .shrReg _ _ | .subnReg _ _
  | .shlReg _ _ | .ldI _ | .jpV0 _ | .rnd _ _ | .skp _ | .sknp _ | .ldVxDt _ | .ldVxK _ | .ldDtVx _ | .ldStVx _ | .ldF _ =>
    none

/-- The state a fault of an instruction leaves (R165, R167): the record in the status and nothing else changed. -/
def haltedBy (i : Instr) (kind : FaultKind) (info : Option Nat) (s : State) : State :=
  { s with status := .halted { kind := kind, pc := some s.pc, word := some (encode i), info := info } }

/-- The state an iteration leaves when its cycle faults before or in an instruction: the record in the status and
surfaced, the iteration's inputs used up, and nothing else changed (R165, R192). -/
def haltedIteration (r : FaultRecord) (s : State) : State :=
  { s with status := .halted r, result := .completed false, outputs := [.runEnd (.halted r)],
           inputs := s.inputs.tail, iterations := s.iterations + 1 }

/-! ### Sprites -/

/-- Cell (r, c) is the target of a set bit of the sprite whose row `k` is `bytes k`, drawn with `n` rows at (x0, y0)
(spec/43_display.md R136). -/
def Covers (bytes : Nat → Byte) (x0 y0 n : Nat) (r : Fin 32) (c : Fin 64) : Prop :=
  ∃ row < n, ∃ col < 8, r.val = (y0 + row) % 32 ∧ c.val = (x0 + col) % 64 ∧ (bytes row).getLsbD (7 - col) = true

/-- The sprite Dxyn draws in a state: the bytes from I on, at column V[x] and row V[y] (R140). -/
def DrwCovers (x y : Reg) (n : RowCount) (s : State) (r : Fin 32) (c : Fin 64) : Prop :=
  Covers (fun k => s.byteAt (s.i.toNat + k)) (s.reg x).toNat (s.reg y).toNat n.val r c

/-! ### Time -/

/-- The number of ticks an amount of accumulated time makes: `floor(ms / FRAME_MS)` with FRAME_MS = 1000/60 (R183). -/
def framesIn (ms : Rat) : Nat := (ms / (1000 / 60)).floor.toNat

end Sys2Proof.Safety
end

