-- ==== Sys2Proof/Certificates/Slice0/Obligations.lean ====
section
/-! DEFINITION. The statements about the model, each from the rules of spec/ its docstring names. Where a statement rests
on a decision of the spec (D<n>) or of the model (log <n>) and not on the spec's source, its docstring says so. -/

open Sys2Proof Sys2Proof.Machine Sys2Proof.Safety

/-! ### Encoding and decoding -/

/-- R74, R83: decoding the word of any well-formed instruction gives the instruction back, whatever its operands, and so
does decoding its two bytes with any bytes after them. -/
def Obligations.DecodeEncodeRoundTrip : Prop :=
  ∀ i : Instr, i.wellFormed = true →
    decode (encode i) = .ok i ∧ ∀ rest, decodeBytes (encodeBytes i ++ rest) = .ok (i, rest)

/-- R74, R83 (for 5xyn and 9xyn by the spec's decision D18, log 23: DESIGN CHOICE): a word that decodes is the encoding
of a well-formed instruction, so no two words decode to one instruction and no bit of a word is dropped. -/
def Obligations.DecodedWordIsItsEncoding : Prop :=
  ∀ (w : Word) (i : Instr), decode w = .ok i → i.wellFormed = true ∧ encode i = w

/-- R76, R82 (D18 for 5xyn and 9xyn, log 23): every word decodes or is unrecognised, and the unrecognised words are those
R76 lists. -/
def Obligations.UnrecognisedWordsAreThoseListed : Prop :=
  ∀ w : Word,
    ((∃ i, decode w = .ok i) ∨ decode w = .error (.unrecognised w)) ∧
    (decode w = .error (.unrecognised w) ↔
      ((w.toNat / 4096 = 5 ∨ w.toNat / 4096 = 9) ∧ w.toNat % 16 ≠ 0) ∨
      (w.toNat / 4096 = 8 ∧ w.toNat % 16 ∈ [0x8, 0x9, 0xA, 0xB, 0xC, 0xD, 0xF]) ∨
      (w.toNat / 4096 = 0xE ∧ w.toNat % 256 ∉ [0x9E, 0xA1]) ∨
      (w.toNat / 4096 = 0xF ∧ w.toNat % 256 ∉ [0x07, 0x0A, 0x15, 0x18, 0x1E, 0x29, 0x33, 0x55, 0x65]))

/-- spec/95_test_vectors.md 2.1 and the examples of R83: words of the spec and what they decode to. That 5121 is
unrecognised is the spec's decision D18 (log 23: DESIGN CHOICE). -/
def Obligations.SpecWordsDecode : Prop :=
  decode 0x0000#16 = .ok (.sys 0x000#12) ∧ decode 0x00E0#16 = .ok .cls ∧ decode 0x00EE#16 = .ok .ret ∧
  decode 0x5120#16 = .ok (.seReg 1 2) ∧ decode 0x5121#16 = .error (.unrecognised 0x5121#16) ∧
  decode 0x8124#16 = .ok (.addReg 1 2) ∧ decode 0x800E#16 = .ok (.shlReg 0 0) ∧
  decode 0x9AB0#16 = .ok (.sneReg 10 11) ∧ decode 0xD015#16 = .ok (.drw 0 1 5) ∧
  decode 0xE0A1#16 = .ok (.sknp 0) ∧ decode 0xF065#16 = .ok (.ldVxMem 0) ∧
  decode 0xFFFF#16 = .error (.unrecognised 0xFFFF#16)

/-! ### The step -/

/-- R53, R71, R178: when the run goes on, PC and PC + 1 are inside memory and the two bytes there decode to `i`, the step
is `exec i` on the state with the cycle's result cleared, then the pacer's part of the iteration with its elapsed time. -/
def Obligations.StepRunsDecodedInstruction : Prop :=
  ∀ (s : State) (i : Instr), Continues s → s.pc.toNat + 1 < 4096 →
    decode (BitVec.ofNat 16 ((s.byteAt s.pc.toNat).toNat * 256 + (s.byteAt (s.pc.toNat + 1)).toNat)) = .ok i →
    step s = match exec i s.beginCycle with
      | .next t => .next (pace (elapsedMs s.input) t).endIteration
      | .fault f => .fault f
      | .refused r => .refused r

/-- The model's own placing of an instruction (log 6): where the run goes on and PC can be fetched from, a word placed by
`withFetchWord` is the one the very next step runs, and `decodeTableWord` names the instruction. -/
def Obligations.PlacedInstructionRuns : Prop :=
  ∀ (s : State) (w : Word) (i : Instr), s.runEnd = none → s.pc.toNat < 4095 → decode w = .ok i →
    decodeTableWord 16 w.toNat = some i ∧
    ∃ t, exec i (s.withFetchWord 16 w.toNat).beginCycle = .next t ∧
      step (s.withFetchWord 16 w.toNat) =
        .next (pace (elapsedMs (s.withFetchWord 16 w.toNat).input) t).endIteration

/-- R66, R77, R165, R167, R168 (with D15, log 20, for the pacer, and D6, D7 for two of the instructions' own checks): the
three places a cycle can fault, in their order. Each leaves every register, the stack, memory, the framebuffer, the
timers, the pending-redraw flag and the lag as they were, with the record in the status and surfaced. -/
def Obligations.FaultEndsTheIteration : Prop :=
  ∀ s : State, Continues s →
    (4095 ≤ s.pc.toNat → step s = .next (haltedIteration ⟨.outOfBoundsFetch, some s.pc, none, none⟩ s)) ∧
    ∀ w, s.pc.toNat < 4095 →
      w = BitVec.ofNat 16 ((s.byteAt s.pc.toNat).toNat * 256 + (s.byteAt (s.pc.toNat + 1)).toNat) →
      (decode w = .error (.unrecognised w) →
        step s = .next (haltedIteration ⟨.unrecognisedOpcode, some s.pc, some w, none⟩ s)) ∧
      ∀ i k info, decode w = .ok i → faultOf i s = some (k, info) →
        step s = .next (haltedIteration ⟨k, some s.pc, some w, info⟩ s)

/-- R36, R185, R186: the machine stops exactly where the run has already ended, by a fault, a failed load or a quit; no
instruction, and no fault, stops the step itself. That the step after the run's end stops is DEDUCED (log 7), and the quit
mark `hasQuit` is the model's own field (log 8: DEDUCED). -/
def Obligations.StepStopsOnlyAfterTheRunEnds : Prop :=
  ∀ s : State,
    ((∃ t, step s = .next t) ↔ s.runEnd = none) ∧
    (s.runEnd = none ↔ s.status = .running ∧ s.hasQuit = false)

/-- R185 (with D22, log 8): an iteration whose quit input is true runs no cycle and no tick and ends the run with the
state as it stands; no iteration follows. -/
def Obligations.QuitEndsTheRun : Prop :=
  ∀ s : State, s.runEnd = none → s.input.quit = true →
    ∃ t, step s = .next t ∧ t.runEnd = some .quit ∧ (∀ u, step t ≠ .next u) ∧
      t = { s with hasQuit := true, outputs := [.runEnd .quit], inputs := s.inputs.tail, iterations := s.iterations + 1 }

/-- R73, R165, R166, R167 (with D6, D7, log 11, 12): an instruction faults exactly in the cases listed; then the record
holds PC, its word and the info, and nothing else changes; otherwise it answers a next state with the status unchanged. -/
def Obligations.FaultsAreExactlyThoseListed : Prop :=
  ∀ (i : Instr) (s : State),
    (∀ k info, faultOf i s = some (k, info) → exec i s = .next (haltedBy i k info s)) ∧
    (faultOf i s = none → ∃ t, exec i s = .next t ∧ t.status = s.status)

/-! ### Control flow -/

/-- R86: every word 0000 to 0FFF but 00E0 and 00EE is SYS, and 0nnn only advances PC, for every nnn. -/
def Obligations.SysOnlyAdvances : Prop :=
  ∀ (nnn : Addr) (s : State),
    (nnn ≠ 0x0E0 → nnn ≠ 0x0EE → decode (BitVec.ofNat 16 nnn.toNat) = .ok (.sys nnn)) ∧
    ∃ t, exec (.sys nnn) s = .next t ∧ OnlyPc s t ∧ t.pc = s.pc + 2

/-- R87, R93: 1nnn sets PC to nnn; Bnnn sets PC to nnn + V0 with no reduction, in both QUIRKS settings. Nothing else
changes. The words are those the rules give. -/
def Obligations.JumpsSetPc : Prop :=
  ∀ (nnn : Addr) (s : State),
    decode (BitVec.ofNat 16 (0x1000 + nnn.toNat)) = .ok (.jp nnn) ∧
    decode (BitVec.ofNat 16 (0xB000 + nnn.toNat)) = .ok (.jpV0 nnn) ∧
    (∃ t, exec (.jp nnn) s = .next t ∧ OnlyPc s t ∧ t.pc.toNat = nnn.toNat) ∧
    (∃ t, exec (.jpV0 nnn) s = .next t ∧ OnlyPc s t ∧ t.pc.toNat = nnn.toNat + (s.reg 0).toNat)

/-- R88: 2nnn pushes PC + 2 and sets PC to nnn, at any stack depth. Nothing else changes. The word is the one
the rule gives. -/
def Obligations.CallPushesReturnAddress : Prop :=
  ∀ (nnn : Addr) (s : State), decode (BitVec.ofNat 16 (0x2000 + nnn.toNat)) = .ok (.call nnn) ∧
    ∃ t, exec (.call nnn) s = .next t ∧
    t.stack = s.stack ++ [s.pc + 2] ∧ t.pc.toNat = nnn.toNat ∧
    t = { s with stack := t.stack, pc := t.pc } ∧ MemKept s t

/-- R85: 00EE pops the top entry into PC; on an empty stack it raises EmptyCallStack with its PC and word, and nothing
else changes. -/
def Obligations.RetPopsReturnAddress : Prop :=
  ∀ s : State, decode 0x00EE#16 = .ok .ret ∧
    (∀ l a, s.stack = l ++ [a] → ∃ t, exec .ret s = .next t ∧
      t.pc = a ∧ t.stack = l ∧ t = { s with stack := t.stack, pc := t.pc } ∧ MemKept s t) ∧
    (s.stack = [] →
      exec .ret s = .next { s with status := .halted ⟨.emptyCallStack, some s.pc, some 0x00EE#16, none⟩ })

/-- R85, R88, R96: a return right after a call comes back to the instruction after the call with the stack as it was, and
saves or restores nothing else. -/
def Obligations.CallThenReturn : Prop :=
  ∀ (nnn : Addr) (s t : State), exec (.call nnn) s = .next t → exec .ret t = .next { s with pc := s.pc + 2 }

/-- R89 to R92: each compare skips (PC + 4) exactly where its condition holds and advances by 2 otherwise. Nothing else
changes, VF included. The words are those the rules give; that 5xyn and 9xyn with n from 1 to 15 decode to nothing is the
spec's decision D18 (log 23: DESIGN CHOICE). -/
def Obligations.ComparesSkip : Prop :=
  ∀ (x y : Reg) (nn : Byte) (s : State),
    decode (BitVec.ofNat 16 (0x3000 + x.val * 256 + nn.toNat)) = .ok (.seImm x nn) ∧
    decode (BitVec.ofNat 16 (0x4000 + x.val * 256 + nn.toNat)) = .ok (.sneImm x nn) ∧
    decode (BitVec.ofNat 16 (0x5000 + x.val * 256 + y.val * 16)) = .ok (.seReg x y) ∧
    decode (BitVec.ofNat 16 (0x9000 + x.val * 256 + y.val * 16)) = .ok (.sneReg x y) ∧
    (∀ n, 1 ≤ n → n ≤ 15 → (∀ i, decode (BitVec.ofNat 16 (0x5000 + x.val * 256 + y.val * 16 + n)) ≠ .ok i) ∧
      ∀ i, decode (BitVec.ofNat 16 (0x9000 + x.val * 256 + y.val * 16 + n)) ≠ .ok i) ∧
    (∃ t, exec (.seImm x nn) s = .next t ∧ OnlyPc s t ∧ t.pc = if s.reg x = nn then s.pc + 4 else s.pc + 2) ∧
    (∃ t, exec (.sneImm x nn) s = .next t ∧ OnlyPc s t ∧ t.pc = if s.reg x = nn then s.pc + 2 else s.pc + 4) ∧
    (∃ t, exec (.seReg x y) s = .next t ∧ OnlyPc s t ∧ t.pc = if s.reg x = s.reg y then s.pc + 4 else s.pc + 2) ∧
    (∃ t, exec (.sneReg x y) s = .next t ∧ OnlyPc s t ∧ t.pc = if s.reg x = s.reg y then s.pc + 2 else s.pc + 4)

/-- R72: every instruction but the jumps, call, return and skips advances PC by 2 where it neither faults nor blocks (that
Fx0A blocks without an event is the spec's decision D11, log 16: DESIGN CHOICE). -/
def Obligations.OtherInstructionsAdvanceByTwo : Prop :=
  ∀ (i : Instr) (s t : State),
    i ≠ .ret → (∀ a, i ≠ .jp a ∧ i ≠ .call a ∧ i ≠ .jpV0 a) →
    (∀ x nn, i ≠ .seImm x nn ∧ i ≠ .sneImm x nn) → (∀ x y, i ≠ .seReg x y ∧ i ≠ .sneReg x y) →
    (∀ x, i ≠ .skp x ∧ i ≠ .sknp x) →
    faultOf i s = none → ((∃ x, i = .ldVxK x) → s.input.keyEvent ≠ none) →
    exec i s = .next t → t.pc = s.pc + 2

/-! ### Arithmetic and logic -/

/-- R100, R101, R102: 6xnn loads nn, 7xnn adds nn modulo 256, 8xy0 copies Vy. Only Vx and PC change, so VF does not
unless it is Vx. The words are those the rules give. -/
def Obligations.LoadsAndImmediateAdd : Prop :=
  ∀ (x y : Reg) (nn : Byte) (s : State),
    decode (BitVec.ofNat 16 (0x6000 + x.val * 256 + nn.toNat)) = .ok (.ldImm x nn) ∧
    decode (BitVec.ofNat 16 (0x7000 + x.val * 256 + nn.toNat)) = .ok (.addImm x nn) ∧
    decode (BitVec.ofNat 16 (0x8000 + x.val * 256 + y.val * 16)) = .ok (.ldReg x y) ∧
    (∃ t, exec (.ldImm x nn) s = .next t ∧ t.reg x = nn ∧ OnlyRegs [x] s t) ∧
    (∃ t, exec (.addImm x nn) s = .next t ∧
      (t.reg x).toNat = ((s.reg x).toNat + nn.toNat) % 256 ∧ OnlyRegs [x] s t) ∧
    (∃ t, exec (.ldReg x y) s = .next t ∧ t.reg x = s.reg y ∧ OnlyRegs [x] s t)

/-- R103, R104, R105, R116: the logic operations, bit by bit. Only Vx and PC change. The words are those the
rules give. -/
def Obligations.LogicOperations : Prop :=
  ∀ (x y : Reg) (s : State),
    decode (BitVec.ofNat 16 (0x8000 + x.val * 256 + y.val * 16 + 1)) = .ok (.orReg x y) ∧
    decode (BitVec.ofNat 16 (0x8000 + x.val * 256 + y.val * 16 + 2)) = .ok (.andReg x y) ∧
    decode (BitVec.ofNat 16 (0x8000 + x.val * 256 + y.val * 16 + 3)) = .ok (.xorReg x y) ∧
    (∃ t, exec (.orReg x y) s = .next t ∧ OnlyRegs [x] s t ∧
      ∀ k < 8, (t.reg x).getLsbD k = ((s.reg x).getLsbD k || (s.reg y).getLsbD k)) ∧
    (∃ t, exec (.andReg x y) s = .next t ∧ OnlyRegs [x] s t ∧
      ∀ k < 8, (t.reg x).getLsbD k = ((s.reg x).getLsbD k && (s.reg y).getLsbD k)) ∧
    (∃ t, exec (.xorReg x y) s = .next t ∧ OnlyRegs [x] s t ∧
      ∀ k < 8, (t.reg x).getLsbD k = ((s.reg x).getLsbD k ^^ (s.reg y).getLsbD k))

/-- R106 (the case x = 15 and the operands being read first are the spec's decision D9, log 14): 8xy4 leaves the sum
modulo 256 in Vx and the carry in VF, and VF is the carry when x = 15. -/
def Obligations.AddSetsCarry : Prop :=
  ∀ (x y : Reg) (s : State), ∃ t, exec (.addReg x y) s = .next t ∧
    (x ≠ VF → (t.reg x).toNat = ((s.reg x).toNat + (s.reg y).toNat) % 256) ∧
    (t.reg VF).toNat = (if 256 ≤ (s.reg x).toNat + (s.reg y).toNat then 1 else 0) ∧ OnlyRegs [x, VF] s t

/-- R107, R109, R115 (x = 15 by D9, log 14): 8xy5 leaves Vx - Vy and 8xy7 Vy - Vx modulo 256 in Vx, and 1 in VF exactly
where there is no borrow. -/
def Obligations.SubtractionsSetNoBorrow : Prop :=
  ∀ (x y : Reg) (s : State),
    (∃ t, exec (.subReg x y) s = .next t ∧
      (x ≠ VF → ((t.reg x).toNat : Int) = ((s.reg x).toNat - (s.reg y).toNat : Int) % 256) ∧
      (t.reg VF).toNat = (if (s.reg y).toNat ≤ (s.reg x).toNat then 1 else 0) ∧ OnlyRegs [x, VF] s t) ∧
    (∃ t, exec (.subnReg x y) s = .next t ∧
      (x ≠ VF → ((t.reg x).toNat : Int) = ((s.reg y).toNat - (s.reg x).toNat : Int) % 256) ∧
      (t.reg VF).toNat = (if (s.reg x).toNat ≤ (s.reg y).toNat then 1 else 0) ∧ OnlyRegs [x, VF] s t)

/-- R108, R110, R81 (x = 15 by D9, log 14): the shifts take Vy, or Vx when QUIRKS is true, leave it shifted by one in Vx
and the bit shifted out in VF, and VF is the shifted value when x = 15. -/
def Obligations.ShiftsTakeTheQuirkSource : Prop :=
  ∀ (x y : Reg) (s : State) (a : Byte), a = (if s.params.quirks = true then s.reg x else s.reg y) →
    (∃ t, exec (.shrReg x y) s = .next t ∧ (t.reg x).toNat = a.toNat / 2 ∧
      (x ≠ VF → (t.reg VF).toNat = a.toNat % 2) ∧ OnlyRegs [x, VF] s t) ∧
    (∃ t, exec (.shlReg x y) s = .next t ∧ (t.reg x).toNat = a.toNat * 2 % 256 ∧
      (x ≠ VF → (t.reg VF).toNat = a.toNat / 128) ∧ OnlyRegs [x, VF] s t)

/-- R111, R117 (the draw is a free input of the iteration, D17, log 22): Cxnn leaves the draw masked by nn in Vx, for
every draw. -/
def Obligations.RandomDrawIsMasked : Prop :=
  ∀ (x : Reg) (nn : Byte) (s : State), ∃ t, exec (.rnd x nn) s = .next t ∧ OnlyRegs [x] s t ∧
    ∀ k < 8, (t.reg x).getLsbD k = (s.input.rand.getLsbD k && nn.getLsbD k)

/-! ### The address register and memory transfers -/

/-- R120, R122: Annn sets I to nnn; Fx29 sets I to five times Vx, not masked. Nothing else but PC changes. The
words are those the rules give. -/
def Obligations.IndexIsLoaded : Prop :=
  ∀ (nnn : Addr) (x : Reg) (s : State),
    decode (BitVec.ofNat 16 (0xA000 + nnn.toNat)) = .ok (.ldI nnn) ∧
    decode (BitVec.ofNat 16 (0xF000 + x.val * 256 + 0x29)) = .ok (.ldF x) ∧
    (∃ t, exec (.ldI nnn) s = .next t ∧ t.i.toNat = nnn.toNat ∧ t.pc = s.pc + 2 ∧
      t = { s with i := t.i, pc := t.pc } ∧ MemKept s t) ∧
    (∃ t, exec (.ldF x) s = .next t ∧ t.i.toNat = (s.reg x).toNat * 5 ∧ t.pc = s.pc + 2 ∧
      t = { s with i := t.i, pc := t.pc } ∧ MemKept s t)

/-- R121, R127 (the fault is the spec's decision D7, log 12): Fx1E adds Vx to I without masking, and raises
AddressOverflow with the unreduced sum where it does not fit 16 bits. VF does not change. -/
def Obligations.AddToIndexOrOverflow : Prop :=
  ∀ (x : Reg) (s : State),
    (s.i.toNat + (s.reg x).toNat ≤ 0xFFFF → ∃ t, exec (.addI x) s = .next t ∧
      t.i.toNat = s.i.toNat + (s.reg x).toNat ∧ t.pc = s.pc + 2 ∧
      t = { s with i := t.i, pc := t.pc } ∧ MemKept s t) ∧
    (0xFFFF < s.i.toNat + (s.reg x).toNat →
      exec (.addI x) s = .next (haltedBy (.addI x) .addressOverflow (some (s.i.toNat + (s.reg x).toNat)) s))

/-- R123 (the digit order is D10, log 15, the bound D6, log 11): Fx33 stores the hundreds, tens and units digits of Vx at
I, I+1, I+2 and changes nothing else but PC, or raises OutOfBoundsAccess and changes nothing. -/
def Obligations.DecimalDigitsAreStored : Prop :=
  ∀ (x : Reg) (s : State),
    (s.i.toNat + 2 < 4096 → ∃ t, exec (.ldB x) s = .next t ∧
      (s.reg x).toNat = 100 * (t.byteAt s.i.toNat).toNat + 10 * (t.byteAt (s.i.toNat + 1)).toNat +
        (t.byteAt (s.i.toNat + 2)).toNat ∧
      (∀ k < 3, (t.byteAt (s.i.toNat + k)).toNat ≤ 9) ∧ MemKeptOutside s.i.toNat 3 s t ∧
      t.pc = s.pc + 2 ∧ t = { s with mem := t.mem, pc := t.pc }) ∧
    (4096 ≤ s.i.toNat + 2 →
      exec (.ldB x) s = .next (haltedBy (.ldB x) .outOfBoundsAccess (some (max s.i.toNat 4096)) s))

/-- R124 (the bound is D6, log 11): Fx55 stores V0..Vx at I..I+x, then advances I by x + 1 where QUIRKS is false, and
changes nothing else but PC; or raises OutOfBoundsAccess and changes nothing. -/
def Obligations.RegistersAreStored : Prop :=
  ∀ (x : Reg) (s : State),
    (s.i.toNat + x.val < 4096 → ∃ t, exec (.ldMemVx x) s = .next t ∧
      (∀ r : Reg, r ≤ x → t.byteAt (s.i.toNat + r.val) = s.reg r) ∧ MemKeptOutside s.i.toNat (x.val + 1) s t ∧
      t.i.toNat = (if s.params.quirks = true then s.i.toNat else s.i.toNat + x.val + 1) ∧
      t.pc = s.pc + 2 ∧ t = { s with mem := t.mem, i := t.i, pc := t.pc }) ∧
    (4096 ≤ s.i.toNat + x.val →
      exec (.ldMemVx x) s = .next (haltedBy (.ldMemVx x) .outOfBoundsAccess (some (max s.i.toNat 4096)) s))

/-- R125 (the bound is D6, log 11): Fx65 loads V0..Vx from I..I+x, then advances I by x + 1 where QUIRKS is false, and
changes nothing else but PC; or raises OutOfBoundsAccess and changes nothing. -/
def Obligations.RegistersAreLoaded : Prop :=
  ∀ (x : Reg) (s : State),
    (s.i.toNat + x.val < 4096 → ∃ t, exec (.ldVxMem x) s = .next t ∧
      (∀ r : Reg, r ≤ x → t.reg r = s.byteAt (s.i.toNat + r.val)) ∧ (∀ r : Reg, x < r → t.reg r = s.reg r) ∧
      t.i.toNat = (if s.params.quirks = true then s.i.toNat else s.i.toNat + x.val + 1) ∧
      t.pc = s.pc + 2 ∧ t = { s with v := t.v, i := t.i, pc := t.pc } ∧ MemKept s t) ∧
    (4096 ≤ s.i.toNat + x.val →
      exec (.ldVxMem x) s = .next (haltedBy (.ldVxMem x) .outOfBoundsAccess (some (max s.i.toNat 4096)) s))

/-- R58, R124, R125: a block store followed by a block load from the same address, in either QUIRKS setting and whatever
the registers hold by then, brings back V0..Vx. -/
def Obligations.StoreThenLoadBringsBack : Prop :=
  ∀ (x : Reg) (s t : State) (v : Vector Byte 16), s.i.toNat + x.val < 4096 → exec (.ldMemVx x) s = .next t →
    ∃ u, exec (.ldVxMem x) { t with i := s.i, v := v } = .next u ∧ ∀ r : Reg, r ≤ x → u.reg r = s.reg r

/-- R63, R206: a block store over the bytes of the next instruction is what the next fetch reads, the first byte high. -/
def Obligations.StoredBytesAreFetchedNext : Prop :=
  ∀ (x r : Reg) (s : State), s.i.toNat + x.val < 4096 → r.val + 1 ≤ x.val → (s.pc + 2).toNat = s.i.toNat + r.val →
    ∃ t w, exec (.ldMemVx x) s = .next t ∧ t.fetch = some w ∧
      w.toNat = (s.reg r).toNat * 256 + (s.reg (r + 1)).toNat

/-! ### Display -/

/-- R139: 00E0 unlights every cell and signals redraw, lit cells or not. Nothing else but PC changes. -/
def Obligations.ClearUnlightsEveryCell : Prop :=
  ∀ s : State, decode 0x00E0#16 = .ok .cls ∧ ∃ t, exec .cls s = .next t ∧ (∀ r c, cell t.fb r c = false) ∧ t.result = .completed true ∧
    t.pc = s.pc + 2 ∧ t = { s with fb := t.fb, result := t.result, pc := t.pc } ∧ MemKept s t

/-- R136, R137, R138, R140 (the bound is D6, log 11): Dxyn toggles exactly the cells under set sprite bits, with wrap,
sets VF to 1 exactly where such a cell was lit, and signals redraw; or raises OutOfBoundsAccess and changes nothing. -/
def Obligations.DrawTogglesCoveredCells : Prop :=
  ∀ (x y : Reg) (n : RowCount) (s : State),
    (n.val = 0 ∨ s.i.toNat + n.val ≤ 4096 → ∃ t, exec (.drw x y n) s = .next t ∧
      (∀ r c, DrwCovers x y n s r c → cell t.fb r c = !cell s.fb r c) ∧
      (∀ r c, ¬DrwCovers x y n s r c → cell t.fb r c = cell s.fb r c) ∧
      (t.reg VF = 1 ∨ t.reg VF = 0) ∧
      (t.reg VF = 1 ↔ ∃ r c, DrwCovers x y n s r c ∧ cell s.fb r c = true) ∧
      RegsKeptBut [VF] s t ∧ t.result = .completed true ∧ t.pc = s.pc + 2 ∧
      t = { s with v := t.v, fb := t.fb, result := t.result, pc := t.pc } ∧ MemKept s t) ∧
    (0 < n.val ∧ 4096 < s.i.toNat + n.val →
      exec (.drw x y n) s = .next (haltedBy (.drw x y n) .outOfBoundsAccess (some (max s.i.toNat 4096)) s))

/-- R142 (b), (c): drawing the same sprite again at the same coordinates restores the framebuffer, and the second draw
collides exactly where the first turned some cell on. The coordinates are the same unless one of them is in VF, which the
first draw writes, and held another value there. -/
def Obligations.DrawTwiceRestores : Prop :=
  ∀ (x y : Reg) (n : RowCount) (s t u : State), (n.val = 0 ∨ s.i.toNat + n.val ≤ 4096) →
    exec (.drw x y n) s = .next t → t.reg x = s.reg x → t.reg y = s.reg y → exec (.drw x y n) t = .next u →
    u.fb = s.fb ∧ (u.reg VF = 1 ↔ ∃ r c, cell s.fb r c = false ∧ cell t.fb r c = true)

/-- R138: coordinates are taken modulo the dimensions: a draw at column `a` and row `b` is the draw at any column equal
to it modulo 64 and any row equal to it modulo 32. -/
def Obligations.DrawWrapsCoordinates : Prop :=
  ∀ (x y : Reg) (n : RowCount) (s t u : State) (v : Vector Byte 16),
    v[x.val].toNat % 64 = (s.reg x).toNat % 64 → v[y.val].toNat % 32 = (s.reg y).toNat % 32 →
    exec (.drw x y n) s = .next t → exec (.drw x y n) { s with v := v } = .next u →
    u.fb = t.fb ∧ u.status = t.status ∧ (n.val = 0 ∨ s.i.toNat + n.val ≤ 4096 → u.reg VF = t.reg VF)

/-! ### Keypad and timers -/

/-- R150, R151, R152 (the poll as an input of the iteration is D2, log 1): Ex9E skips exactly where a key is pressed and
its number is Vx, ExA1 exactly where not; a value of 16 or more names no key. Nothing else changes. -/
def Obligations.KeySkipsFollowThePoll : Prop :=
  ∀ (x : Reg) (s : State),
    ((∃ k, s.input.keyPressed = some k ∧ k.val = (s.reg x).toNat) →
      (∃ t, exec (.skp x) s = .next t ∧ OnlyPc s t ∧ t.pc = s.pc + 4) ∧
      (∃ t, exec (.sknp x) s = .next t ∧ OnlyPc s t ∧ t.pc = s.pc + 2)) ∧
    ((¬∃ k, s.input.keyPressed = some k ∧ k.val = (s.reg x).toNat) →
      (∃ t, exec (.skp x) s = .next t ∧ OnlyPc s t ∧ t.pc = s.pc + 2) ∧
      (∃ t, exec (.sknp x) s = .next t ∧ OnlyPc s t ∧ t.pc = s.pc + 4)) ∧
    (16 ≤ (s.reg x).toNat → ∃ t, exec (.skp x) s = .next t ∧ t.pc = s.pc + 2)

/-- R153, R155, R156: Fx07 reads DT into Vx, Fx15 writes Vx to DT, Fx18 writes Vx to ST. Nothing else but PC changes. The
words are those the rules give. That Fx18 puts nothing out is part of the spec's decision D13 (log 18: DESIGN CHOICE). -/
def Obligations.TimersAreMoved : Prop :=
  ∀ (x : Reg) (s : State),
    decode (BitVec.ofNat 16 (0xF000 + x.val * 256 + 0x07)) = .ok (.ldVxDt x) ∧
    decode (BitVec.ofNat 16 (0xF000 + x.val * 256 + 0x15)) = .ok (.ldDtVx x) ∧
    decode (BitVec.ofNat 16 (0xF000 + x.val * 256 + 0x18)) = .ok (.ldStVx x) ∧
    (∃ t, exec (.ldVxDt x) s = .next t ∧ t.reg x = s.dt ∧ OnlyRegs [x] s t) ∧
    (∃ t, exec (.ldDtVx x) s = .next t ∧ t.dt = s.reg x ∧ t.pc = s.pc + 2 ∧
      t = { s with dt := t.dt, pc := t.pc } ∧ MemKept s t) ∧
    (∃ t, exec (.ldStVx x) s = .next t ∧ t.st = s.reg x ∧ t.pc = s.pc + 2 ∧
      t = { s with st := t.st, pc := t.pc } ∧ t.outputs = s.outputs ∧ MemKept s t)

/-- R154, R157 (D11, D12, log 16, 17): Fx0A completes with the key of a key-down event of its own iteration, whatever key
is pressed, and is Blocked with nothing changed without one. -/
def Obligations.KeyWaitCompletesOnEvent : Prop :=
  ∀ (x : Reg) (s : State),
    (∀ k, s.input.keyEvent = some k → ∃ t, exec (.ldVxK x) s = .next t ∧ (t.reg x).toNat = k.val ∧ OnlyRegs [x] s t) ∧
    (s.input.keyEvent = none → exec (.ldVxK x) s = .next { s with result := .blocked })

/-! ### Rules over all instructions -/

/-- R22, R23, R116: an instruction writes no general register but those the table of R22 gives it. -/
def Obligations.RegistersWrittenAreThoseListed : Prop :=
  ∀ (i : Instr) (s t : State), exec i s = .next t → RegsKeptBut (destRegs i) s t

/-- R25, R29, R31, R32, R35, R46: I, the stack, the timers, the framebuffer and memory are written by the instructions
named there and by no other. -/
def Obligations.SpecialStateWritersAreThoseListed : Prop :=
  ∀ (i : Instr) (s t : State), exec i s = .next t →
    (writesI s.params.quirks i = false → t.i = s.i) ∧
    (i ≠ .ret → (∀ a, i ≠ .call a) → t.stack = s.stack) ∧
    ((∀ x, i ≠ .ldDtVx x) → t.dt = s.dt) ∧
    ((∀ x, i ≠ .ldStVx x) → t.st = s.st) ∧
    (i ≠ .cls → (∀ x y n, i ≠ .drw x y n) → t.fb = s.fb) ∧
    ((∀ x, i ≠ .ldB x) → (∀ x, i ≠ .ldMemVx x) → t.mem = s.mem ∧ MemKept s t)

/-- R18, R33, R37, R38, R39, R192: an instruction touches neither the pacer's flag and lag nor the launch parameters, and
puts nothing out. For Fx18 that rests on the spec's decision D13 (log 18: DESIGN CHOICE). The outputs, the schedule of
inputs with its count, and the quit mark are the model's own fields (log 26, log 1, log 8). -/
def Obligations.InstructionsLeaveThePacerAlone : Prop :=
  ∀ (i : Instr) (s t : State), exec i s = .next t →
    t.redrawPending = s.redrawPending ∧ t.lag = s.lag ∧ t.params = s.params ∧ t.outputs = s.outputs ∧
    t.inputs = s.inputs ∧ t.iterations = s.iterations ∧ t.hasQuit = s.hasQuit

/-- R81: every instruction but 8xy6, 8xyE, Fx55 and Fx65 behaves identically in both QUIRKS settings. -/
def Obligations.QuirksChangeFourInstructions : Prop :=
  ∀ (i : Instr) (s t : State) (q : Bool), (∀ x y, i ≠ .shrReg x y ∧ i ≠ .shlReg x y) →
    (∀ x, i ≠ .ldMemVx x ∧ i ≠ .ldVxMem x) → exec i s = .next t → exec i (withQuirks q s) = .next (withQuirks q t)

/-- R117, R157, R171: the inputs of an iteration reach an instruction only through Ex9E, ExA1 (the poll), Fx0A (the event)
and Cxnn (the draw). That the event reaches only Fx0A is the spec's decision D12 (log 17), that the draw reaches only Cxnn
its decision D17 (log 22), both DESIGN CHOICE; the schedule of inputs is the model's own (D2, log 1). -/
def Obligations.InputsReachFourInstructions : Prop :=
  ∀ (i : Instr) (s t : State) (inps : List IterInput), (∀ x, i ≠ .skp x ∧ i ≠ .sknp x ∧ i ≠ .ldVxK x) →
    (∀ x nn, i ≠ .rnd x nn) → exec i s = .next t →
    exec i { s with inputs := inps } = .next { t with inputs := inps }

/-- R71, R141, R154: a cycle's instruction that does not fault signals redraw exactly for 00E0 and Dxyn, and is Blocked
exactly for Fx0A without an event. The Blocked result is the spec's decision D11 (log 16: DESIGN CHOICE), and the field
that holds a cycle's result is the model's own (log 29: DESIGN CHOICE). -/
def Obligations.RedrawAndBlockedResults : Prop :=
  ∀ (i : Instr) (s t : State), faultOf i s = none → exec i s.beginCycle = .next t →
    (t.result = .completed true ↔ i = .cls ∨ ∃ x y n, i = .drw x y n) ∧
    (t.result = .blocked ↔ (∃ x, i = .ldVxK x) ∧ s.input.keyEvent = none)

/-! ### The pacer -/

/-- R178 to R183 (the tone's edge is D13, log 18, exact arithmetic D14, log 19): after a cycle that neither faulted nor
stalls, the pacer makes floor((lag + elapsed) / (1000/60)) ticks: each timer is that much lower and not below 0, the
framebuffer is presented once where a redraw is pending, the tone sounds where ST passes from 1 to 0, the rest of the lag
stays, and nothing else changes. -/
def Obligations.PacerDrainsWholeFrames : Prop :=
  ∀ (s : State) (ms : Rat) (n : Nat) (pending : Bool), s.status = .running → s.stalls = false → 0 ≤ s.lag → 0 ≤ ms →
    n = framesIn (s.lag + ms) → pending = (s.redrawPending || s.result == .completed true) →
    ∃ t, t = pace ms s ∧
      t.lag = s.lag + ms - n * (1000 / 60) ∧ 0 ≤ t.lag ∧ t.lag < 1000 / 60 ∧
      t.dt.toNat = s.dt.toNat - n ∧ t.st.toNat = s.st.toNat - n ∧ t.redrawPending = (pending && n == 0) ∧
      t.outputs = s.outputs ++ (if pending = true ∧ 0 < n then [.present s.fb] else []) ++
        (if 1 ≤ s.st.toNat ∧ s.st.toNat ≤ n then [.emitTone] else []) ∧
      t = { s with lag := t.lag, dt := t.dt, st := t.st, redrawPending := t.redrawPending, outputs := t.outputs }

/-- R183 (exact by D14, log 19): the timers, the presentation and the tone depend on how much time has been accumulated
and not on how many iterations it was accumulated in. -/
def Obligations.TimeMayBeAccumulatedInPieces : Prop :=
  ∀ (s : State) (pieces : List Rat), 0 ≤ s.lag → s.lag < 1000 / 60 → (∀ ms ∈ pieces, 0 ≤ ms) →
    pieces.foldl (fun u ms => accumulate ms u) s = accumulate pieces.sum s

/-- R183 and the source's example S5 (exact by D14, log 19): 1000 ms from lag 0 make exactly 60 ticks. -/
def Obligations.OneSecondIsSixtyTicks : Prop :=
  ∀ s : State, s.lag = 0 →
    (accumulate 1000 s).dt.toNat = s.dt.toNat - 60 ∧ (accumulate 1000 s).st.toNat = s.st.toNat - 60 ∧
    (accumulate 1000 s).lag = 0

/-- R38, R178, R183 (D14, log 19): over any run of k iterations under KEYWAIT_STALLS_TIMERS false that has not ended,
whatever the instructions, the lag left is what remains of the start's lag and all the elapsed times after whole frames. -/
def Obligations.LagOverARun : Prop :=
  ∀ (k : Nat) (s t : State), s.params.keywaitStallsTimers = false → 0 ≤ s.lag → s.lag < 1000 / 60 →
    k ≤ s.inputs.length → Host.Core.run core k s = .next t → t.runEnd = none →
    ∀ total : Rat, total = s.lag + ((s.inputs.take k).map elapsedMs).sum →
      t.lag = total - framesIn total * (1000 / 60)

/-- R154, R184 (D11, log 16: DESIGN CHOICE): an iteration whose Fx0A is blocked leaves PC and every register; under
KEYWAIT_STALLS_TIMERS it also leaves the lag and the timers, and without it they go on as after any cycle, with the exact
lag and tick count of D14 (log 19: DESIGN CHOICE, unsafe). The used-up inputs and their count (log 1), the outputs (log 26)
and the result (log 29) are the model's own fields. -/
def Obligations.BlockedIterationAndTheTimers : Prop :=
  ∀ (s : State) (w : Word) (x : Reg), Continues s → s.fetch = some w → decode w = .ok (.ldVxK x) →
    s.input.keyEvent = none → 0 ≤ s.lag →
    (s.params.keywaitStallsTimers = true →
      step s = .next { s with result := .blocked, outputs := [], inputs := s.inputs.tail, iterations := s.iterations + 1 }) ∧
    (s.params.keywaitStallsTimers = false → ∃ t, step s = .next t ∧
      t.dt.toNat = s.dt.toNat - framesIn (s.lag + elapsedMs s.input) ∧
      t.st.toNat = s.st.toNat - framesIn (s.lag + elapsedMs s.input) ∧
      t.lag = s.lag + elapsedMs s.input - framesIn (s.lag + elapsedMs s.input) * (1000 / 60) ∧
      t = { s with lag := t.lag, dt := t.dt, st := t.st, redrawPending := t.redrawPending, outputs := t.outputs,
                   result := .blocked, inputs := s.inputs.tail, iterations := s.iterations + 1 })

/-- R33, R191: the launch parameters, QUIRKS among them, are fixed for the run: no step changes them. -/
def Obligations.LaunchParametersAreFixed : Prop := ∀ s t : State, step s = .next t → t.params = s.params

/-! ### Reset and loading -/

/-- R26, R34: whatever the launch parameters and the program, PC is 0x200 and every framebuffer cell unlit at the start. -/
def Obligations.ResetStatedValues : Prop :=
  ∀ (p : LaunchParams) (program : List Byte),
    (boot p program).pc.toNat = 0x200 ∧ ∀ r c, cell (boot p program).fb r c = false

/-- The values the spec chose, R41 by its decisions D3 and D16 (log 2, log 21), and not its source: V0..VF, I, DT, ST and
the lag are 0, the stack is empty and no redraw is pending, whatever the launch parameters and the program. -/
def Obligations.ResetChosenValues : Prop :=
  ∀ (p : LaunchParams) (program : List Byte),
    (∀ r, (boot p program).reg r = 0) ∧ (boot p program).i = 0 ∧ (boot p program).dt = 0 ∧ (boot p program).st = 0 ∧
    (boot p program).stack = [] ∧ (boot p program).redrawPending = false ∧ (boot p program).lag = 0

/-- R201, R186, R192: a program of at most 3584 bytes is copied verbatim from 0x200 on and nothing else changes; a longer
one fails with ProgramTooLarge carrying its length, the no-start end is put out, nothing else changes and no cycle is ever
run. That a failed load halts the status, with no PC and no word in the record, is DEDUCED (log 9); the outputs are the
model's own field (log 26). -/
def Obligations.LoaderCopiesOrFails : Prop :=
  ∀ (program : List Byte) (s : State),
    (program.length ≤ 3584 →
      (∀ k (h : k < program.length), (load program s).byteAt (0x200 + k) = program[k]) ∧
      MemKeptOutside 0x200 program.length s (load program s) ∧
      load program s = { s with mem := (load program s).mem }) ∧
    (3584 < program.length →
      (∃ r, r.kind = .programTooLarge ∧ r.info = some program.length ∧ r.pc = none ∧ r.word = none ∧
        load program s = { s with status := .halted r, outputs := [.runEnd (.noStart r)] }) ∧
      ∀ t, step (load program s) ≠ .next t)

/-- R47, R48, R51, R200 (FONT and INIT_MEM are the launch parameters of D4, D5, log 3, log 4): the memory a run starts
with: the font at 0..79, the program from 0x200 on, INIT_MEM elsewhere. -/
def Obligations.StartingMemoryMap : Prop :=
  ∀ (p : LaunchParams) (program : List Byte), program.length ≤ 3584 →
    (∀ a (h : a < 80), (boot p program).byteAt a = p.font[a]) ∧
    (∀ k (h : k < program.length), (boot p program).byteAt (0x200 + k) = program[k]) ∧
    (∀ a, 80 ≤ a → (a < 0x200 ∨ 0x200 + program.length ≤ a) → (boot p program).byteAt a = p.initMem.getD a 0)

/-! ### The invariant -/

/-- R28 (the spec's own inference), R38, R85, R165, R167, R186: every step from a state that meets the invariant gives one
that meets it. Choices behind its clauses: the canonical form of memory is the model's own (log 27; R45 gives the 4096
cells); the exact lag is D14 (log 19); the quit mark is the model's own (log 8: DEDUCED); the record of ProgramTooLarge is
DEDUCED (log 9), that of OutOfBoundsAccess is D6 (log 11) and that of AddressOverflow D7 (log 12). -/
def Obligations.StepKeepsInvariant : Prop := ∀ s t : State, Inv s → step s = .next t → Inv t

/-- The state after reset meets the invariant, for every setting of the launch parameters (R41). It uses the chosen reset
values empty stack (D3, log 2: DESIGN CHOICE) and lag 0 (D16, log 21: DESIGN CHOICE), and the model's own canonical form of
memory (log 27: DESIGN CHOICE) and quit mark (log 8). -/
def Obligations.ResetMeetsInvariant : Prop := (∀ p, Inv (State.initial p)) ∧ Inv State.reset

/-- A state with a program loaded, or with a failed load, meets the invariant (R200, R201). The record of a failed load,
with no PC and no word in a halted status, is DEDUCED (log 9); the empty stack (D3, log 2), the lag 0 (D16, log 21) and the
canonical form of memory (log 27) are choices (DESIGN CHOICE), and the quit mark is the model's own (log 8). -/
def Obligations.BootMeetsInvariant : Prop := ∀ (p : LaunchParams) (program : List Byte), Inv (boot p program)
end

