-- ==== Sys2Proof/Laws/Decode.lean ====
section
/-! SUPPORT. The fields of an encoded word, and the families of the decoder. -/

namespace Sys2Proof

theorem encodeXYN_toNat {op : Nat} {x y : Reg} {n : Nat} (ho : op < 16) (hn : n < 16) :
    (encodeXYN op x y n).toNat = op * 4096 + x.val * 256 + y.val * 16 + n := by
  have := x.isLt; have := y.isLt
  simp only [encodeXYN, BitVec.toNat_ofNat]; omega

theorem encodeXK_toNat {op : Nat} {x : Reg} {nn : Byte} (ho : op < 16) :
    (encodeXK op x nn).toNat = op * 4096 + x.val * 256 + nn.toNat := by
  have := x.isLt; have := nn.isLt
  simp only [encodeXK, BitVec.toNat_ofNat]; omega

theorem encodeA_toNat {op : Nat} {nnn : Addr} (ho : op < 16) : (encodeA op nnn).toNat = op * 4096 + nnn.toNat := by
  have := nnn.isLt
  simp only [encodeA, BitVec.toNat_ofNat]; omega

/-! ### A slice as division and remainder -/

theorem slice_15_12 (w : Word) : slice w 15 12 = w.toNat / 4096 := by
  have := w.isLt; simp only [slice]; omega

theorem slice_11_8 (w : Word) : slice w 11 8 = w.toNat / 256 % 16 := by simp [slice]

theorem slice_7_4 (w : Word) : slice w 7 4 = w.toNat / 16 % 16 := by simp [slice]

theorem slice_3_0 (w : Word) : slice w 3 0 = w.toNat % 16 := by simp [slice]

theorem slice_7_0 (w : Word) : slice w 7 0 = w.toNat % 256 := by simp [slice]

theorem slice_11_0 (w : Word) : slice w 11 0 = w.toNat % 4096 := by simp [slice]

/-! ### The fields of an encoded word (R68, R83) -/

section
variable {op : Nat} {x y : Reg} {n : Nat} {nn : Byte} {nnn : Addr}

theorem slice_15_12_encodeXYN (ho : op < 16) (hn : n < 16) : slice (encodeXYN op x y n) 15 12 = op := by
  have := x.isLt; have := y.isLt
  rw [slice_15_12, encodeXYN_toNat ho hn]; omega

theorem slice_3_0_encodeXYN (ho : op < 16) (hn : n < 16) : slice (encodeXYN op x y n) 3 0 = n := by
  rw [slice_3_0, encodeXYN_toNat ho hn]; omega

theorem fieldX_encodeXYN (ho : op < 16) (hn : n < 16) : fieldX (encodeXYN op x y n) = x := by
  have := x.isLt; have := y.isLt
  apply Fin.ext
  simp only [fieldX, slice_11_8, encodeXYN_toNat ho hn, Fin.val_ofNat]; omega

theorem fieldY_encodeXYN (ho : op < 16) (hn : n < 16) : fieldY (encodeXYN op x y n) = y := by
  have := y.isLt
  apply Fin.ext
  simp only [fieldY, slice_7_4, encodeXYN_toNat ho hn, Fin.val_ofNat]; omega

theorem fieldN_encodeXYN {n : RowCount} (ho : op < 16) : fieldN (encodeXYN op x y n.val) = n := by
  have := n.isLt
  apply Fin.ext
  simp only [fieldN, slice_3_0, encodeXYN_toNat ho n.isLt, Fin.val_ofNat]; omega

theorem slice_15_12_encodeXK (ho : op < 16) : slice (encodeXK op x nn) 15 12 = op := by
  have := x.isLt; have := nn.isLt
  rw [slice_15_12, encodeXK_toNat ho]; omega

theorem slice_7_0_encodeXK (ho : op < 16) : slice (encodeXK op x nn) 7 0 = nn.toNat := by
  have := nn.isLt
  rw [slice_7_0, encodeXK_toNat ho]; omega

theorem fieldX_encodeXK (ho : op < 16) : fieldX (encodeXK op x nn) = x := by
  have := x.isLt; have := nn.isLt
  apply Fin.ext
  simp only [fieldX, slice_11_8, encodeXK_toNat ho, Fin.val_ofNat]; omega

theorem fieldNn_encodeXK (ho : op < 16) : fieldNn (encodeXK op x nn) = nn := by
  rw [fieldNn, slice_7_0_encodeXK ho, BitVec.ofNat_toNat, BitVec.setWidth_eq]

theorem slice_15_12_encodeA (ho : op < 16) : slice (encodeA op nnn) 15 12 = op := by
  have := nnn.isLt
  rw [slice_15_12, encodeA_toNat ho]; omega

theorem fieldNnn_encodeA (ho : op < 16) : fieldNnn (encodeA op nnn) = nnn := by
  have := nnn.isLt
  apply BitVec.eq_of_toNat_eq
  simp only [fieldNnn, slice_11_0, encodeA_toNat ho, BitVec.toNat_ofNat]; omega

end

/-! ### A word from its fields -/

theorem fieldX_val (w : Word) : (fieldX w).val = w.toNat / 256 % 16 := by
  simp only [fieldX, slice_11_8, Fin.val_ofNat]; omega

theorem fieldY_val (w : Word) : (fieldY w).val = w.toNat / 16 % 16 := by
  simp only [fieldY, slice_7_4, Fin.val_ofNat]; omega

theorem fieldN_val (w : Word) : (fieldN w).val = w.toNat % 16 := by
  simp only [fieldN, slice_3_0, Fin.val_ofNat]; omega

theorem fieldNn_toNat (w : Word) : (fieldNn w).toNat = w.toNat % 256 := by
  simp only [fieldNn, slice_7_0, BitVec.toNat_ofNat]; omega

theorem fieldNnn_toNat (w : Word) : (fieldNnn w).toNat = w.toNat % 4096 := by
  simp only [fieldNnn, slice_11_0, BitVec.toNat_ofNat]; omega

/-- A word is the encoding of its own nibbles. -/
theorem encodeXYN_fields (w : Word) : encodeXYN (slice w 15 12) (fieldX w) (fieldY w) (slice w 3 0) = w := by
  have := w.isLt
  apply BitVec.eq_of_toNat_eq
  rw [encodeXYN_toNat (by rw [slice_15_12]; omega) (by rw [slice_3_0]; omega), slice_15_12, fieldX_val, fieldY_val,
    slice_3_0]
  omega

theorem encodeXK_fields (w : Word) : encodeXK (slice w 15 12) (fieldX w) (fieldNn w) = w := by
  have := w.isLt
  apply BitVec.eq_of_toNat_eq
  rw [encodeXK_toNat (by rw [slice_15_12]; omega), slice_15_12, fieldX_val, fieldNn_toNat]
  omega

theorem encodeA_fields (w : Word) : encodeA (slice w 15 12) (fieldNnn w) = w := by
  have := w.isLt
  apply BitVec.eq_of_toNat_eq
  rw [encodeA_toNat (by rw [slice_15_12]; omega), slice_15_12, fieldNnn_toNat]
  omega

/-- The two bytes of a word, high byte first, form it again (R53). -/
theorem wordOfBytes_bytes (w : Word) :
    wordOfBytes (BitVec.ofNat 8 (slice w 15 8)) (BitVec.ofNat 8 (slice w 7 0)) = w := by
  have := w.isLt
  apply BitVec.eq_of_toNat_eq
  simp only [wordOfBytes, slice, BitVec.toNat_ofNat]; omega

end Sys2Proof
end

