-- ==== Sys2Proof/Laws/State.lean ====
section
/-! SUPPORT. One lemma per field per update of the state, true by rfl, so that no later proof unfolds an update; and
what the operations read. -/

namespace Sys2Proof.Machine

variable (s : State)

/-! ### setByte -/

@[simp] theorem State.setByte_v (a : Nat) (b : Byte) : (s.setByte a b).v = s.v := rfl
@[simp] theorem State.setByte_i (a : Nat) (b : Byte) : (s.setByte a b).i = s.i := rfl
@[simp] theorem State.setByte_pc (a : Nat) (b : Byte) : (s.setByte a b).pc = s.pc := rfl
@[simp] theorem State.setByte_stack (a : Nat) (b : Byte) : (s.setByte a b).stack = s.stack := rfl
@[simp] theorem State.setByte_dt (a : Nat) (b : Byte) : (s.setByte a b).dt = s.dt := rfl
@[simp] theorem State.setByte_st (a : Nat) (b : Byte) : (s.setByte a b).st = s.st := rfl
@[simp] theorem State.setByte_mem (a : Nat) (b : Byte) : (s.setByte a b).mem = Memory.write s.params s.mem a b := rfl
@[simp] theorem State.setByte_fb (a : Nat) (b : Byte) : (s.setByte a b).fb = s.fb := rfl
@[simp] theorem State.setByte_status (a : Nat) (b : Byte) : (s.setByte a b).status = s.status := rfl
@[simp] theorem State.setByte_redrawPending (a : Nat) (b : Byte) : (s.setByte a b).redrawPending = s.redrawPending := rfl
@[simp] theorem State.setByte_lag (a : Nat) (b : Byte) : (s.setByte a b).lag = s.lag := rfl
@[simp] theorem State.setByte_params (a : Nat) (b : Byte) : (s.setByte a b).params = s.params := rfl
@[simp] theorem State.setByte_result (a : Nat) (b : Byte) : (s.setByte a b).result = s.result := rfl
@[simp] theorem State.setByte_hasQuit (a : Nat) (b : Byte) : (s.setByte a b).hasQuit = s.hasQuit := rfl
@[simp] theorem State.setByte_inputs (a : Nat) (b : Byte) : (s.setByte a b).inputs = s.inputs := rfl
@[simp] theorem State.setByte_iterations (a : Nat) (b : Byte) : (s.setByte a b).iterations = s.iterations := rfl
@[simp] theorem State.setByte_outputs (a : Nat) (b : Byte) : (s.setByte a b).outputs = s.outputs := rfl

/-! ### setReg -/

@[simp] theorem State.setReg_v (x : Reg) (b : Byte) : (s.setReg x b).v = s.v.set x.val b := rfl
@[simp] theorem State.setReg_i (x : Reg) (b : Byte) : (s.setReg x b).i = s.i := rfl
@[simp] theorem State.setReg_pc (x : Reg) (b : Byte) : (s.setReg x b).pc = s.pc := rfl
@[simp] theorem State.setReg_stack (x : Reg) (b : Byte) : (s.setReg x b).stack = s.stack := rfl
@[simp] theorem State.setReg_dt (x : Reg) (b : Byte) : (s.setReg x b).dt = s.dt := rfl
@[simp] theorem State.setReg_st (x : Reg) (b : Byte) : (s.setReg x b).st = s.st := rfl
@[simp] theorem State.setReg_mem (x : Reg) (b : Byte) : (s.setReg x b).mem = s.mem := rfl
@[simp] theorem State.setReg_fb (x : Reg) (b : Byte) : (s.setReg x b).fb = s.fb := rfl
@[simp] theorem State.setReg_status (x : Reg) (b : Byte) : (s.setReg x b).status = s.status := rfl
@[simp] theorem State.setReg_redrawPending (x : Reg) (b : Byte) : (s.setReg x b).redrawPending = s.redrawPending := rfl
@[simp] theorem State.setReg_lag (x : Reg) (b : Byte) : (s.setReg x b).lag = s.lag := rfl
@[simp] theorem State.setReg_params (x : Reg) (b : Byte) : (s.setReg x b).params = s.params := rfl
@[simp] theorem State.setReg_result (x : Reg) (b : Byte) : (s.setReg x b).result = s.result := rfl
@[simp] theorem State.setReg_hasQuit (x : Reg) (b : Byte) : (s.setReg x b).hasQuit = s.hasQuit := rfl
@[simp] theorem State.setReg_inputs (x : Reg) (b : Byte) : (s.setReg x b).inputs = s.inputs := rfl
@[simp] theorem State.setReg_iterations (x : Reg) (b : Byte) : (s.setReg x b).iterations = s.iterations := rfl
@[simp] theorem State.setReg_outputs (x : Reg) (b : Byte) : (s.setReg x b).outputs = s.outputs := rfl

/-! ### setRegsUpTo -/

@[simp] theorem State.setRegsUpTo_i (x : Reg) (bs : List Byte) : (s.setRegsUpTo x bs).i = s.i := rfl
@[simp] theorem State.setRegsUpTo_pc (x : Reg) (bs : List Byte) : (s.setRegsUpTo x bs).pc = s.pc := rfl
@[simp] theorem State.setRegsUpTo_stack (x : Reg) (bs : List Byte) : (s.setRegsUpTo x bs).stack = s.stack := rfl
@[simp] theorem State.setRegsUpTo_dt (x : Reg) (bs : List Byte) : (s.setRegsUpTo x bs).dt = s.dt := rfl
@[simp] theorem State.setRegsUpTo_st (x : Reg) (bs : List Byte) : (s.setRegsUpTo x bs).st = s.st := rfl
@[simp] theorem State.setRegsUpTo_mem (x : Reg) (bs : List Byte) : (s.setRegsUpTo x bs).mem = s.mem := rfl
@[simp] theorem State.setRegsUpTo_fb (x : Reg) (bs : List Byte) : (s.setRegsUpTo x bs).fb = s.fb := rfl
@[simp] theorem State.setRegsUpTo_status (x : Reg) (bs : List Byte) : (s.setRegsUpTo x bs).status = s.status := rfl
@[simp] theorem State.setRegsUpTo_redrawPending (x : Reg) (bs : List Byte) : (s.setRegsUpTo x bs).redrawPending = s.redrawPending := rfl
@[simp] theorem State.setRegsUpTo_lag (x : Reg) (bs : List Byte) : (s.setRegsUpTo x bs).lag = s.lag := rfl
@[simp] theorem State.setRegsUpTo_params (x : Reg) (bs : List Byte) : (s.setRegsUpTo x bs).params = s.params := rfl
@[simp] theorem State.setRegsUpTo_result (x : Reg) (bs : List Byte) : (s.setRegsUpTo x bs).result = s.result := rfl
@[simp] theorem State.setRegsUpTo_hasQuit (x : Reg) (bs : List Byte) : (s.setRegsUpTo x bs).hasQuit = s.hasQuit := rfl
@[simp] theorem State.setRegsUpTo_inputs (x : Reg) (bs : List Byte) : (s.setRegsUpTo x bs).inputs = s.inputs := rfl
@[simp] theorem State.setRegsUpTo_iterations (x : Reg) (bs : List Byte) : (s.setRegsUpTo x bs).iterations = s.iterations := rfl
@[simp] theorem State.setRegsUpTo_outputs (x : Reg) (bs : List Byte) : (s.setRegsUpTo x bs).outputs = s.outputs := rfl

/-! ### setI -/

@[simp] theorem State.setI_v (a : Word) : (s.setI a).v = s.v := rfl
@[simp] theorem State.setI_i (a : Word) : (s.setI a).i = a := rfl
@[simp] theorem State.setI_pc (a : Word) : (s.setI a).pc = s.pc := rfl
@[simp] theorem State.setI_stack (a : Word) : (s.setI a).stack = s.stack := rfl
@[simp] theorem State.setI_dt (a : Word) : (s.setI a).dt = s.dt := rfl
@[simp] theorem State.setI_st (a : Word) : (s.setI a).st = s.st := rfl
@[simp] theorem State.setI_mem (a : Word) : (s.setI a).mem = s.mem := rfl
@[simp] theorem State.setI_fb (a : Word) : (s.setI a).fb = s.fb := rfl
@[simp] theorem State.setI_status (a : Word) : (s.setI a).status = s.status := rfl
@[simp] theorem State.setI_redrawPending (a : Word) : (s.setI a).redrawPending = s.redrawPending := rfl
@[simp] theorem State.setI_lag (a : Word) : (s.setI a).lag = s.lag := rfl
@[simp] theorem State.setI_params (a : Word) : (s.setI a).params = s.params := rfl
@[simp] theorem State.setI_result (a : Word) : (s.setI a).result = s.result := rfl
@[simp] theorem State.setI_hasQuit (a : Word) : (s.setI a).hasQuit = s.hasQuit := rfl
@[simp] theorem State.setI_inputs (a : Word) : (s.setI a).inputs = s.inputs := rfl
@[simp] theorem State.setI_iterations (a : Word) : (s.setI a).iterations = s.iterations := rfl
@[simp] theorem State.setI_outputs (a : Word) : (s.setI a).outputs = s.outputs := rfl

/-! ### setDt -/

@[simp] theorem State.setDt_v (b : Byte) : (s.setDt b).v = s.v := rfl
@[simp] theorem State.setDt_i (b : Byte) : (s.setDt b).i = s.i := rfl
@[simp] theorem State.setDt_pc (b : Byte) : (s.setDt b).pc = s.pc := rfl
@[simp] theorem State.setDt_stack (b : Byte) : (s.setDt b).stack = s.stack := rfl
@[simp] theorem State.setDt_dt (b : Byte) : (s.setDt b).dt = b := rfl
@[simp] theorem State.setDt_st (b : Byte) : (s.setDt b).st = s.st := rfl
@[simp] theorem State.setDt_mem (b : Byte) : (s.setDt b).mem = s.mem := rfl
@[simp] theorem State.setDt_fb (b : Byte) : (s.setDt b).fb = s.fb := rfl
@[simp] theorem State.setDt_status (b : Byte) : (s.setDt b).status = s.status := rfl
@[simp] theorem State.setDt_redrawPending (b : Byte) : (s.setDt b).redrawPending = s.redrawPending := rfl
@[simp] theorem State.setDt_lag (b : Byte) : (s.setDt b).lag = s.lag := rfl
@[simp] theorem State.setDt_params (b : Byte) : (s.setDt b).params = s.params := rfl
@[simp] theorem State.setDt_result (b : Byte) : (s.setDt b).result = s.result := rfl
@[simp] theorem State.setDt_hasQuit (b : Byte) : (s.setDt b).hasQuit = s.hasQuit := rfl
@[simp] theorem State.setDt_inputs (b : Byte) : (s.setDt b).inputs = s.inputs := rfl
@[simp] theorem State.setDt_iterations (b : Byte) : (s.setDt b).iterations = s.iterations := rfl
@[simp] theorem State.setDt_outputs (b : Byte) : (s.setDt b).outputs = s.outputs := rfl

/-! ### setSt -/

@[simp] theorem State.setSt_v (b : Byte) : (s.setSt b).v = s.v := rfl
@[simp] theorem State.setSt_i (b : Byte) : (s.setSt b).i = s.i := rfl
@[simp] theorem State.setSt_pc (b : Byte) : (s.setSt b).pc = s.pc := rfl
@[simp] theorem State.setSt_stack (b : Byte) : (s.setSt b).stack = s.stack := rfl
@[simp] theorem State.setSt_dt (b : Byte) : (s.setSt b).dt = s.dt := rfl
@[simp] theorem State.setSt_st (b : Byte) : (s.setSt b).st = b := rfl
@[simp] theorem State.setSt_mem (b : Byte) : (s.setSt b).mem = s.mem := rfl
@[simp] theorem State.setSt_fb (b : Byte) : (s.setSt b).fb = s.fb := rfl
@[simp] theorem State.setSt_status (b : Byte) : (s.setSt b).status = s.status := rfl
@[simp] theorem State.setSt_redrawPending (b : Byte) : (s.setSt b).redrawPending = s.redrawPending := rfl
@[simp] theorem State.setSt_lag (b : Byte) : (s.setSt b).lag = s.lag := rfl
@[simp] theorem State.setSt_params (b : Byte) : (s.setSt b).params = s.params := rfl
@[simp] theorem State.setSt_result (b : Byte) : (s.setSt b).result = s.result := rfl
@[simp] theorem State.setSt_hasQuit (b : Byte) : (s.setSt b).hasQuit = s.hasQuit := rfl
@[simp] theorem State.setSt_inputs (b : Byte) : (s.setSt b).inputs = s.inputs := rfl
@[simp] theorem State.setSt_iterations (b : Byte) : (s.setSt b).iterations = s.iterations := rfl
@[simp] theorem State.setSt_outputs (b : Byte) : (s.setSt b).outputs = s.outputs := rfl

/-! ### advance -/

@[simp] theorem State.advance_v : (s.advance).v = s.v := rfl
@[simp] theorem State.advance_i : (s.advance).i = s.i := rfl
@[simp] theorem State.advance_pc : (s.advance).pc = s.pc + 2 := rfl
@[simp] theorem State.advance_stack : (s.advance).stack = s.stack := rfl
@[simp] theorem State.advance_dt : (s.advance).dt = s.dt := rfl
@[simp] theorem State.advance_st : (s.advance).st = s.st := rfl
@[simp] theorem State.advance_mem : (s.advance).mem = s.mem := rfl
@[simp] theorem State.advance_fb : (s.advance).fb = s.fb := rfl
@[simp] theorem State.advance_status : (s.advance).status = s.status := rfl
@[simp] theorem State.advance_redrawPending : (s.advance).redrawPending = s.redrawPending := rfl
@[simp] theorem State.advance_lag : (s.advance).lag = s.lag := rfl
@[simp] theorem State.advance_params : (s.advance).params = s.params := rfl
@[simp] theorem State.advance_result : (s.advance).result = s.result := rfl
@[simp] theorem State.advance_hasQuit : (s.advance).hasQuit = s.hasQuit := rfl
@[simp] theorem State.advance_inputs : (s.advance).inputs = s.inputs := rfl
@[simp] theorem State.advance_iterations : (s.advance).iterations = s.iterations := rfl
@[simp] theorem State.advance_outputs : (s.advance).outputs = s.outputs := rfl

/-! ### skipIf -/

@[simp] theorem State.skipIf_v (c : Bool) : (s.skipIf c).v = s.v := rfl
@[simp] theorem State.skipIf_i (c : Bool) : (s.skipIf c).i = s.i := rfl
@[simp] theorem State.skipIf_pc (c : Bool) : (s.skipIf c).pc = if c then s.pc + 4 else s.pc + 2 := rfl
@[simp] theorem State.skipIf_stack (c : Bool) : (s.skipIf c).stack = s.stack := rfl
@[simp] theorem State.skipIf_dt (c : Bool) : (s.skipIf c).dt = s.dt := rfl
@[simp] theorem State.skipIf_st (c : Bool) : (s.skipIf c).st = s.st := rfl
@[simp] theorem State.skipIf_mem (c : Bool) : (s.skipIf c).mem = s.mem := rfl
@[simp] theorem State.skipIf_fb (c : Bool) : (s.skipIf c).fb = s.fb := rfl
@[simp] theorem State.skipIf_status (c : Bool) : (s.skipIf c).status = s.status := rfl
@[simp] theorem State.skipIf_redrawPending (c : Bool) : (s.skipIf c).redrawPending = s.redrawPending := rfl
@[simp] theorem State.skipIf_lag (c : Bool) : (s.skipIf c).lag = s.lag := rfl
@[simp] theorem State.skipIf_params (c : Bool) : (s.skipIf c).params = s.params := rfl
@[simp] theorem State.skipIf_result (c : Bool) : (s.skipIf c).result = s.result := rfl
@[simp] theorem State.skipIf_hasQuit (c : Bool) : (s.skipIf c).hasQuit = s.hasQuit := rfl
@[simp] theorem State.skipIf_inputs (c : Bool) : (s.skipIf c).inputs = s.inputs := rfl
@[simp] theorem State.skipIf_iterations (c : Bool) : (s.skipIf c).iterations = s.iterations := rfl
@[simp] theorem State.skipIf_outputs (c : Bool) : (s.skipIf c).outputs = s.outputs := rfl

/-! ### jump -/

@[simp] theorem State.jump_v (a : Word) : (s.jump a).v = s.v := rfl
@[simp] theorem State.jump_i (a : Word) : (s.jump a).i = s.i := rfl
@[simp] theorem State.jump_pc (a : Word) : (s.jump a).pc = a := rfl
@[simp] theorem State.jump_stack (a : Word) : (s.jump a).stack = s.stack := rfl
@[simp] theorem State.jump_dt (a : Word) : (s.jump a).dt = s.dt := rfl
@[simp] theorem State.jump_st (a : Word) : (s.jump a).st = s.st := rfl
@[simp] theorem State.jump_mem (a : Word) : (s.jump a).mem = s.mem := rfl
@[simp] theorem State.jump_fb (a : Word) : (s.jump a).fb = s.fb := rfl
@[simp] theorem State.jump_status (a : Word) : (s.jump a).status = s.status := rfl
@[simp] theorem State.jump_redrawPending (a : Word) : (s.jump a).redrawPending = s.redrawPending := rfl
@[simp] theorem State.jump_lag (a : Word) : (s.jump a).lag = s.lag := rfl
@[simp] theorem State.jump_params (a : Word) : (s.jump a).params = s.params := rfl
@[simp] theorem State.jump_result (a : Word) : (s.jump a).result = s.result := rfl
@[simp] theorem State.jump_hasQuit (a : Word) : (s.jump a).hasQuit = s.hasQuit := rfl
@[simp] theorem State.jump_inputs (a : Word) : (s.jump a).inputs = s.inputs := rfl
@[simp] theorem State.jump_iterations (a : Word) : (s.jump a).iterations = s.iterations := rfl
@[simp] theorem State.jump_outputs (a : Word) : (s.jump a).outputs = s.outputs := rfl

/-! ### push -/

@[simp] theorem State.push_v (a : Word) : (s.push a).v = s.v := rfl
@[simp] theorem State.push_i (a : Word) : (s.push a).i = s.i := rfl
@[simp] theorem State.push_pc (a : Word) : (s.push a).pc = s.pc := rfl
@[simp] theorem State.push_stack (a : Word) : (s.push a).stack = s.stack ++ [a] := rfl
@[simp] theorem State.push_dt (a : Word) : (s.push a).dt = s.dt := rfl
@[simp] theorem State.push_st (a : Word) : (s.push a).st = s.st := rfl
@[simp] theorem State.push_mem (a : Word) : (s.push a).mem = s.mem := rfl
@[simp] theorem State.push_fb (a : Word) : (s.push a).fb = s.fb := rfl
@[simp] theorem State.push_status (a : Word) : (s.push a).status = s.status := rfl
@[simp] theorem State.push_redrawPending (a : Word) : (s.push a).redrawPending = s.redrawPending := rfl
@[simp] theorem State.push_lag (a : Word) : (s.push a).lag = s.lag := rfl
@[simp] theorem State.push_params (a : Word) : (s.push a).params = s.params := rfl
@[simp] theorem State.push_result (a : Word) : (s.push a).result = s.result := rfl
@[simp] theorem State.push_hasQuit (a : Word) : (s.push a).hasQuit = s.hasQuit := rfl
@[simp] theorem State.push_inputs (a : Word) : (s.push a).inputs = s.inputs := rfl
@[simp] theorem State.push_iterations (a : Word) : (s.push a).iterations = s.iterations := rfl
@[simp] theorem State.push_outputs (a : Word) : (s.push a).outputs = s.outputs := rfl

/-! ### signalRedraw -/

@[simp] theorem State.signalRedraw_v : (s.signalRedraw).v = s.v := rfl
@[simp] theorem State.signalRedraw_i : (s.signalRedraw).i = s.i := rfl
@[simp] theorem State.signalRedraw_pc : (s.signalRedraw).pc = s.pc := rfl
@[simp] theorem State.signalRedraw_stack : (s.signalRedraw).stack = s.stack := rfl
@[simp] theorem State.signalRedraw_dt : (s.signalRedraw).dt = s.dt := rfl
@[simp] theorem State.signalRedraw_st : (s.signalRedraw).st = s.st := rfl
@[simp] theorem State.signalRedraw_mem : (s.signalRedraw).mem = s.mem := rfl
@[simp] theorem State.signalRedraw_fb : (s.signalRedraw).fb = s.fb := rfl
@[simp] theorem State.signalRedraw_status : (s.signalRedraw).status = s.status := rfl
@[simp] theorem State.signalRedraw_redrawPending : (s.signalRedraw).redrawPending = s.redrawPending := rfl
@[simp] theorem State.signalRedraw_lag : (s.signalRedraw).lag = s.lag := rfl
@[simp] theorem State.signalRedraw_params : (s.signalRedraw).params = s.params := rfl
@[simp] theorem State.signalRedraw_result : (s.signalRedraw).result = .completed true := rfl
@[simp] theorem State.signalRedraw_hasQuit : (s.signalRedraw).hasQuit = s.hasQuit := rfl
@[simp] theorem State.signalRedraw_inputs : (s.signalRedraw).inputs = s.inputs := rfl
@[simp] theorem State.signalRedraw_iterations : (s.signalRedraw).iterations = s.iterations := rfl
@[simp] theorem State.signalRedraw_outputs : (s.signalRedraw).outputs = s.outputs := rfl

/-! ### block -/

@[simp] theorem State.block_v : (s.block).v = s.v := rfl
@[simp] theorem State.block_i : (s.block).i = s.i := rfl
@[simp] theorem State.block_pc : (s.block).pc = s.pc := rfl
@[simp] theorem State.block_stack : (s.block).stack = s.stack := rfl
@[simp] theorem State.block_dt : (s.block).dt = s.dt := rfl
@[simp] theorem State.block_st : (s.block).st = s.st := rfl
@[simp] theorem State.block_mem : (s.block).mem = s.mem := rfl
@[simp] theorem State.block_fb : (s.block).fb = s.fb := rfl
@[simp] theorem State.block_status : (s.block).status = s.status := rfl
@[simp] theorem State.block_redrawPending : (s.block).redrawPending = s.redrawPending := rfl
@[simp] theorem State.block_lag : (s.block).lag = s.lag := rfl
@[simp] theorem State.block_params : (s.block).params = s.params := rfl
@[simp] theorem State.block_result : (s.block).result = .blocked := rfl
@[simp] theorem State.block_hasQuit : (s.block).hasQuit = s.hasQuit := rfl
@[simp] theorem State.block_inputs : (s.block).inputs = s.inputs := rfl
@[simp] theorem State.block_iterations : (s.block).iterations = s.iterations := rfl
@[simp] theorem State.block_outputs : (s.block).outputs = s.outputs := rfl

/-! ### raise -/

@[simp] theorem State.raise_v (k : FaultKind) (w : Option Word) (n : Option Nat) : (s.raise k w n).v = s.v := rfl
@[simp] theorem State.raise_i (k : FaultKind) (w : Option Word) (n : Option Nat) : (s.raise k w n).i = s.i := rfl
@[simp] theorem State.raise_pc (k : FaultKind) (w : Option Word) (n : Option Nat) : (s.raise k w n).pc = s.pc := rfl
@[simp] theorem State.raise_stack (k : FaultKind) (w : Option Word) (n : Option Nat) : (s.raise k w n).stack = s.stack := rfl
@[simp] theorem State.raise_dt (k : FaultKind) (w : Option Word) (n : Option Nat) : (s.raise k w n).dt = s.dt := rfl
@[simp] theorem State.raise_st (k : FaultKind) (w : Option Word) (n : Option Nat) : (s.raise k w n).st = s.st := rfl
@[simp] theorem State.raise_mem (k : FaultKind) (w : Option Word) (n : Option Nat) : (s.raise k w n).mem = s.mem := rfl
@[simp] theorem State.raise_fb (k : FaultKind) (w : Option Word) (n : Option Nat) : (s.raise k w n).fb = s.fb := rfl
@[simp] theorem State.raise_status (k : FaultKind) (w : Option Word) (n : Option Nat) : (s.raise k w n).status = .halted ⟨k, some s.pc, w, n⟩ := rfl
@[simp] theorem State.raise_redrawPending (k : FaultKind) (w : Option Word) (n : Option Nat) : (s.raise k w n).redrawPending = s.redrawPending := rfl
@[simp] theorem State.raise_lag (k : FaultKind) (w : Option Word) (n : Option Nat) : (s.raise k w n).lag = s.lag := rfl
@[simp] theorem State.raise_params (k : FaultKind) (w : Option Word) (n : Option Nat) : (s.raise k w n).params = s.params := rfl
@[simp] theorem State.raise_result (k : FaultKind) (w : Option Word) (n : Option Nat) : (s.raise k w n).result = s.result := rfl
@[simp] theorem State.raise_hasQuit (k : FaultKind) (w : Option Word) (n : Option Nat) : (s.raise k w n).hasQuit = s.hasQuit := rfl
@[simp] theorem State.raise_inputs (k : FaultKind) (w : Option Word) (n : Option Nat) : (s.raise k w n).inputs = s.inputs := rfl
@[simp] theorem State.raise_iterations (k : FaultKind) (w : Option Word) (n : Option Nat) : (s.raise k w n).iterations = s.iterations := rfl
@[simp] theorem State.raise_outputs (k : FaultKind) (w : Option Word) (n : Option Nat) : (s.raise k w n).outputs = s.outputs := rfl

/-! ### raiseIn -/

@[simp] theorem State.raiseIn_v (ins : Instr) (k : FaultKind) (n : Option Nat) : (s.raiseIn ins k n).v = s.v := rfl
@[simp] theorem State.raiseIn_i (ins : Instr) (k : FaultKind) (n : Option Nat) : (s.raiseIn ins k n).i = s.i := rfl
@[simp] theorem State.raiseIn_pc (ins : Instr) (k : FaultKind) (n : Option Nat) : (s.raiseIn ins k n).pc = s.pc := rfl
@[simp] theorem State.raiseIn_stack (ins : Instr) (k : FaultKind) (n : Option Nat) : (s.raiseIn ins k n).stack = s.stack := rfl
@[simp] theorem State.raiseIn_dt (ins : Instr) (k : FaultKind) (n : Option Nat) : (s.raiseIn ins k n).dt = s.dt := rfl
@[simp] theorem State.raiseIn_st (ins : Instr) (k : FaultKind) (n : Option Nat) : (s.raiseIn ins k n).st = s.st := rfl
@[simp] theorem State.raiseIn_mem (ins : Instr) (k : FaultKind) (n : Option Nat) : (s.raiseIn ins k n).mem = s.mem := rfl
@[simp] theorem State.raiseIn_fb (ins : Instr) (k : FaultKind) (n : Option Nat) : (s.raiseIn ins k n).fb = s.fb := rfl
@[simp] theorem State.raiseIn_status (ins : Instr) (k : FaultKind) (n : Option Nat) : (s.raiseIn ins k n).status = .halted ⟨k, some s.pc, some (encode ins), n⟩ := rfl
@[simp] theorem State.raiseIn_redrawPending (ins : Instr) (k : FaultKind) (n : Option Nat) : (s.raiseIn ins k n).redrawPending = s.redrawPending := rfl
@[simp] theorem State.raiseIn_lag (ins : Instr) (k : FaultKind) (n : Option Nat) : (s.raiseIn ins k n).lag = s.lag := rfl
@[simp] theorem State.raiseIn_params (ins : Instr) (k : FaultKind) (n : Option Nat) : (s.raiseIn ins k n).params = s.params := rfl
@[simp] theorem State.raiseIn_result (ins : Instr) (k : FaultKind) (n : Option Nat) : (s.raiseIn ins k n).result = s.result := rfl
@[simp] theorem State.raiseIn_hasQuit (ins : Instr) (k : FaultKind) (n : Option Nat) : (s.raiseIn ins k n).hasQuit = s.hasQuit := rfl
@[simp] theorem State.raiseIn_inputs (ins : Instr) (k : FaultKind) (n : Option Nat) : (s.raiseIn ins k n).inputs = s.inputs := rfl
@[simp] theorem State.raiseIn_iterations (ins : Instr) (k : FaultKind) (n : Option Nat) : (s.raiseIn ins k n).iterations = s.iterations := rfl
@[simp] theorem State.raiseIn_outputs (ins : Instr) (k : FaultKind) (n : Option Nat) : (s.raiseIn ins k n).outputs = s.outputs := rfl

/-! ### setFb -/

@[simp] theorem State.setFb_v (g : Framebuffer) : (s.setFb g).v = s.v := rfl
@[simp] theorem State.setFb_i (g : Framebuffer) : (s.setFb g).i = s.i := rfl
@[simp] theorem State.setFb_pc (g : Framebuffer) : (s.setFb g).pc = s.pc := rfl
@[simp] theorem State.setFb_stack (g : Framebuffer) : (s.setFb g).stack = s.stack := rfl
@[simp] theorem State.setFb_dt (g : Framebuffer) : (s.setFb g).dt = s.dt := rfl
@[simp] theorem State.setFb_st (g : Framebuffer) : (s.setFb g).st = s.st := rfl
@[simp] theorem State.setFb_mem (g : Framebuffer) : (s.setFb g).mem = s.mem := rfl
@[simp] theorem State.setFb_fb (g : Framebuffer) : (s.setFb g).fb = g := rfl
@[simp] theorem State.setFb_status (g : Framebuffer) : (s.setFb g).status = s.status := rfl
@[simp] theorem State.setFb_redrawPending (g : Framebuffer) : (s.setFb g).redrawPending = s.redrawPending := rfl
@[simp] theorem State.setFb_lag (g : Framebuffer) : (s.setFb g).lag = s.lag := rfl
@[simp] theorem State.setFb_params (g : Framebuffer) : (s.setFb g).params = s.params := rfl
@[simp] theorem State.setFb_result (g : Framebuffer) : (s.setFb g).result = s.result := rfl
@[simp] theorem State.setFb_hasQuit (g : Framebuffer) : (s.setFb g).hasQuit = s.hasQuit := rfl
@[simp] theorem State.setFb_inputs (g : Framebuffer) : (s.setFb g).inputs = s.inputs := rfl
@[simp] theorem State.setFb_iterations (g : Framebuffer) : (s.setFb g).iterations = s.iterations := rfl
@[simp] theorem State.setFb_outputs (g : Framebuffer) : (s.setFb g).outputs = s.outputs := rfl

/-! ### resultThenFlag -/

@[simp] theorem State.resultThenFlag_v (x : Reg) (r f : Byte) : (s.resultThenFlag x r f).v = (s.v.set x.val r).set VF.val f := rfl
@[simp] theorem State.resultThenFlag_i (x : Reg) (r f : Byte) : (s.resultThenFlag x r f).i = s.i := rfl
@[simp] theorem State.resultThenFlag_pc (x : Reg) (r f : Byte) : (s.resultThenFlag x r f).pc = s.pc := rfl
@[simp] theorem State.resultThenFlag_stack (x : Reg) (r f : Byte) : (s.resultThenFlag x r f).stack = s.stack := rfl
@[simp] theorem State.resultThenFlag_dt (x : Reg) (r f : Byte) : (s.resultThenFlag x r f).dt = s.dt := rfl
@[simp] theorem State.resultThenFlag_st (x : Reg) (r f : Byte) : (s.resultThenFlag x r f).st = s.st := rfl
@[simp] theorem State.resultThenFlag_mem (x : Reg) (r f : Byte) : (s.resultThenFlag x r f).mem = s.mem := rfl
@[simp] theorem State.resultThenFlag_fb (x : Reg) (r f : Byte) : (s.resultThenFlag x r f).fb = s.fb := rfl
@[simp] theorem State.resultThenFlag_status (x : Reg) (r f : Byte) : (s.resultThenFlag x r f).status = s.status := rfl
@[simp] theorem State.resultThenFlag_redrawPending (x : Reg) (r f : Byte) : (s.resultThenFlag x r f).redrawPending = s.redrawPending := rfl
@[simp] theorem State.resultThenFlag_lag (x : Reg) (r f : Byte) : (s.resultThenFlag x r f).lag = s.lag := rfl
@[simp] theorem State.resultThenFlag_params (x : Reg) (r f : Byte) : (s.resultThenFlag x r f).params = s.params := rfl
@[simp] theorem State.resultThenFlag_result (x : Reg) (r f : Byte) : (s.resultThenFlag x r f).result = s.result := rfl
@[simp] theorem State.resultThenFlag_hasQuit (x : Reg) (r f : Byte) : (s.resultThenFlag x r f).hasQuit = s.hasQuit := rfl
@[simp] theorem State.resultThenFlag_inputs (x : Reg) (r f : Byte) : (s.resultThenFlag x r f).inputs = s.inputs := rfl
@[simp] theorem State.resultThenFlag_iterations (x : Reg) (r f : Byte) : (s.resultThenFlag x r f).iterations = s.iterations := rfl
@[simp] theorem State.resultThenFlag_outputs (x : Reg) (r f : Byte) : (s.resultThenFlag x r f).outputs = s.outputs := rfl

/-! ### flagThenResult -/

@[simp] theorem State.flagThenResult_v (x : Reg) (r f : Byte) : (s.flagThenResult x r f).v = (s.v.set VF.val f).set x.val r := rfl
@[simp] theorem State.flagThenResult_i (x : Reg) (r f : Byte) : (s.flagThenResult x r f).i = s.i := rfl
@[simp] theorem State.flagThenResult_pc (x : Reg) (r f : Byte) : (s.flagThenResult x r f).pc = s.pc := rfl
@[simp] theorem State.flagThenResult_stack (x : Reg) (r f : Byte) : (s.flagThenResult x r f).stack = s.stack := rfl
@[simp] theorem State.flagThenResult_dt (x : Reg) (r f : Byte) : (s.flagThenResult x r f).dt = s.dt := rfl
@[simp] theorem State.flagThenResult_st (x : Reg) (r f : Byte) : (s.flagThenResult x r f).st = s.st := rfl
@[simp] theorem State.flagThenResult_mem (x : Reg) (r f : Byte) : (s.flagThenResult x r f).mem = s.mem := rfl
@[simp] theorem State.flagThenResult_fb (x : Reg) (r f : Byte) : (s.flagThenResult x r f).fb = s.fb := rfl
@[simp] theorem State.flagThenResult_status (x : Reg) (r f : Byte) : (s.flagThenResult x r f).status = s.status := rfl
@[simp] theorem State.flagThenResult_redrawPending (x : Reg) (r f : Byte) : (s.flagThenResult x r f).redrawPending = s.redrawPending := rfl
@[simp] theorem State.flagThenResult_lag (x : Reg) (r f : Byte) : (s.flagThenResult x r f).lag = s.lag := rfl
@[simp] theorem State.flagThenResult_params (x : Reg) (r f : Byte) : (s.flagThenResult x r f).params = s.params := rfl
@[simp] theorem State.flagThenResult_result (x : Reg) (r f : Byte) : (s.flagThenResult x r f).result = s.result := rfl
@[simp] theorem State.flagThenResult_hasQuit (x : Reg) (r f : Byte) : (s.flagThenResult x r f).hasQuit = s.hasQuit := rfl
@[simp] theorem State.flagThenResult_inputs (x : Reg) (r f : Byte) : (s.flagThenResult x r f).inputs = s.inputs := rfl
@[simp] theorem State.flagThenResult_iterations (x : Reg) (r f : Byte) : (s.flagThenResult x r f).iterations = s.iterations := rfl
@[simp] theorem State.flagThenResult_outputs (x : Reg) (r f : Byte) : (s.flagThenResult x r f).outputs = s.outputs := rfl

/-! ### emit -/

@[simp] theorem State.emit_v (o : Output) : (s.emit o).v = s.v := rfl
@[simp] theorem State.emit_i (o : Output) : (s.emit o).i = s.i := rfl
@[simp] theorem State.emit_pc (o : Output) : (s.emit o).pc = s.pc := rfl
@[simp] theorem State.emit_stack (o : Output) : (s.emit o).stack = s.stack := rfl
@[simp] theorem State.emit_dt (o : Output) : (s.emit o).dt = s.dt := rfl
@[simp] theorem State.emit_st (o : Output) : (s.emit o).st = s.st := rfl
@[simp] theorem State.emit_mem (o : Output) : (s.emit o).mem = s.mem := rfl
@[simp] theorem State.emit_fb (o : Output) : (s.emit o).fb = s.fb := rfl
@[simp] theorem State.emit_status (o : Output) : (s.emit o).status = s.status := rfl
@[simp] theorem State.emit_redrawPending (o : Output) : (s.emit o).redrawPending = s.redrawPending := rfl
@[simp] theorem State.emit_lag (o : Output) : (s.emit o).lag = s.lag := rfl
@[simp] theorem State.emit_params (o : Output) : (s.emit o).params = s.params := rfl
@[simp] theorem State.emit_result (o : Output) : (s.emit o).result = s.result := rfl
@[simp] theorem State.emit_hasQuit (o : Output) : (s.emit o).hasQuit = s.hasQuit := rfl
@[simp] theorem State.emit_inputs (o : Output) : (s.emit o).inputs = s.inputs := rfl
@[simp] theorem State.emit_iterations (o : Output) : (s.emit o).iterations = s.iterations := rfl
@[simp] theorem State.emit_outputs (o : Output) : (s.emit o).outputs = s.outputs ++ [o] := rfl

/-! ### beginCycle -/

@[simp] theorem State.beginCycle_v : (s.beginCycle).v = s.v := rfl
@[simp] theorem State.beginCycle_i : (s.beginCycle).i = s.i := rfl
@[simp] theorem State.beginCycle_pc : (s.beginCycle).pc = s.pc := rfl
@[simp] theorem State.beginCycle_stack : (s.beginCycle).stack = s.stack := rfl
@[simp] theorem State.beginCycle_dt : (s.beginCycle).dt = s.dt := rfl
@[simp] theorem State.beginCycle_st : (s.beginCycle).st = s.st := rfl
@[simp] theorem State.beginCycle_mem : (s.beginCycle).mem = s.mem := rfl
@[simp] theorem State.beginCycle_fb : (s.beginCycle).fb = s.fb := rfl
@[simp] theorem State.beginCycle_status : (s.beginCycle).status = s.status := rfl
@[simp] theorem State.beginCycle_redrawPending : (s.beginCycle).redrawPending = s.redrawPending := rfl
@[simp] theorem State.beginCycle_lag : (s.beginCycle).lag = s.lag := rfl
@[simp] theorem State.beginCycle_params : (s.beginCycle).params = s.params := rfl
@[simp] theorem State.beginCycle_result : (s.beginCycle).result = .completed false := rfl
@[simp] theorem State.beginCycle_hasQuit : (s.beginCycle).hasQuit = s.hasQuit := rfl
@[simp] theorem State.beginCycle_inputs : (s.beginCycle).inputs = s.inputs := rfl
@[simp] theorem State.beginCycle_iterations : (s.beginCycle).iterations = s.iterations := rfl
@[simp] theorem State.beginCycle_outputs : (s.beginCycle).outputs = [] := rfl

/-! ### endIteration -/

@[simp] theorem State.endIteration_v : (s.endIteration).v = s.v := rfl
@[simp] theorem State.endIteration_i : (s.endIteration).i = s.i := rfl
@[simp] theorem State.endIteration_pc : (s.endIteration).pc = s.pc := rfl
@[simp] theorem State.endIteration_stack : (s.endIteration).stack = s.stack := rfl
@[simp] theorem State.endIteration_dt : (s.endIteration).dt = s.dt := rfl
@[simp] theorem State.endIteration_st : (s.endIteration).st = s.st := rfl
@[simp] theorem State.endIteration_mem : (s.endIteration).mem = s.mem := rfl
@[simp] theorem State.endIteration_fb : (s.endIteration).fb = s.fb := rfl
@[simp] theorem State.endIteration_status : (s.endIteration).status = s.status := rfl
@[simp] theorem State.endIteration_redrawPending : (s.endIteration).redrawPending = s.redrawPending := rfl
@[simp] theorem State.endIteration_lag : (s.endIteration).lag = s.lag := rfl
@[simp] theorem State.endIteration_params : (s.endIteration).params = s.params := rfl
@[simp] theorem State.endIteration_result : (s.endIteration).result = s.result := rfl
@[simp] theorem State.endIteration_hasQuit : (s.endIteration).hasQuit = s.hasQuit := rfl
@[simp] theorem State.endIteration_inputs : (s.endIteration).inputs = s.inputs.tail := rfl
@[simp] theorem State.endIteration_iterations : (s.endIteration).iterations = s.iterations + 1 := rfl
@[simp] theorem State.endIteration_outputs : (s.endIteration).outputs = s.outputs := rfl

/-! ### quitRun -/

@[simp] theorem quitRun_v : (quitRun s).v = s.v := rfl
@[simp] theorem quitRun_i : (quitRun s).i = s.i := rfl
@[simp] theorem quitRun_pc : (quitRun s).pc = s.pc := rfl
@[simp] theorem quitRun_stack : (quitRun s).stack = s.stack := rfl
@[simp] theorem quitRun_dt : (quitRun s).dt = s.dt := rfl
@[simp] theorem quitRun_st : (quitRun s).st = s.st := rfl
@[simp] theorem quitRun_mem : (quitRun s).mem = s.mem := rfl
@[simp] theorem quitRun_fb : (quitRun s).fb = s.fb := rfl
@[simp] theorem quitRun_status : (quitRun s).status = s.status := rfl
@[simp] theorem quitRun_redrawPending : (quitRun s).redrawPending = s.redrawPending := rfl
@[simp] theorem quitRun_lag : (quitRun s).lag = s.lag := rfl
@[simp] theorem quitRun_params : (quitRun s).params = s.params := rfl
@[simp] theorem quitRun_result : (quitRun s).result = s.result := rfl
@[simp] theorem quitRun_hasQuit : (quitRun s).hasQuit = true := rfl
@[simp] theorem quitRun_inputs : (quitRun s).inputs = s.inputs := rfl
@[simp] theorem quitRun_iterations : (quitRun s).iterations = s.iterations := rfl
@[simp] theorem quitRun_outputs : (quitRun s).outputs = [.runEnd .quit] := rfl

/-! ### setBytes -/

@[simp] theorem State.setBytes_v (a : Nat) (bs : List Byte) : (s.setBytes a bs).v = s.v := by
  induction bs generalizing s a with
  | nil => rfl
  | cons b bs ih => simp [State.setBytes, ih]
@[simp] theorem State.setBytes_i (a : Nat) (bs : List Byte) : (s.setBytes a bs).i = s.i := by
  induction bs generalizing s a with
  | nil => rfl
  | cons b bs ih => simp [State.setBytes, ih]
@[simp] theorem State.setBytes_pc (a : Nat) (bs : List Byte) : (s.setBytes a bs).pc = s.pc := by
  induction bs generalizing s a with
  | nil => rfl
  | cons b bs ih => simp [State.setBytes, ih]
@[simp] theorem State.setBytes_stack (a : Nat) (bs : List Byte) : (s.setBytes a bs).stack = s.stack := by
  induction bs generalizing s a with
  | nil => rfl
  | cons b bs ih => simp [State.setBytes, ih]
@[simp] theorem State.setBytes_dt (a : Nat) (bs : List Byte) : (s.setBytes a bs).dt = s.dt := by
  induction bs generalizing s a with
  | nil => rfl
  | cons b bs ih => simp [State.setBytes, ih]
@[simp] theorem State.setBytes_st (a : Nat) (bs : List Byte) : (s.setBytes a bs).st = s.st := by
  induction bs generalizing s a with
  | nil => rfl
  | cons b bs ih => simp [State.setBytes, ih]
@[simp] theorem State.setBytes_fb (a : Nat) (bs : List Byte) : (s.setBytes a bs).fb = s.fb := by
  induction bs generalizing s a with
  | nil => rfl
  | cons b bs ih => simp [State.setBytes, ih]
@[simp] theorem State.setBytes_status (a : Nat) (bs : List Byte) : (s.setBytes a bs).status = s.status := by
  induction bs generalizing s a with
  | nil => rfl
  | cons b bs ih => simp [State.setBytes, ih]
@[simp] theorem State.setBytes_redrawPending (a : Nat) (bs : List Byte) : (s.setBytes a bs).redrawPending = s.redrawPending := by
  induction bs generalizing s a with
  | nil => rfl
  | cons b bs ih => simp [State.setBytes, ih]
@[simp] theorem State.setBytes_lag (a : Nat) (bs : List Byte) : (s.setBytes a bs).lag = s.lag := by
  induction bs generalizing s a with
  | nil => rfl
  | cons b bs ih => simp [State.setBytes, ih]
@[simp] theorem State.setBytes_params (a : Nat) (bs : List Byte) : (s.setBytes a bs).params = s.params := by
  induction bs generalizing s a with
  | nil => rfl
  | cons b bs ih => simp [State.setBytes, ih]
@[simp] theorem State.setBytes_result (a : Nat) (bs : List Byte) : (s.setBytes a bs).result = s.result := by
  induction bs generalizing s a with
  | nil => rfl
  | cons b bs ih => simp [State.setBytes, ih]
@[simp] theorem State.setBytes_hasQuit (a : Nat) (bs : List Byte) : (s.setBytes a bs).hasQuit = s.hasQuit := by
  induction bs generalizing s a with
  | nil => rfl
  | cons b bs ih => simp [State.setBytes, ih]
@[simp] theorem State.setBytes_inputs (a : Nat) (bs : List Byte) : (s.setBytes a bs).inputs = s.inputs := by
  induction bs generalizing s a with
  | nil => rfl
  | cons b bs ih => simp [State.setBytes, ih]
@[simp] theorem State.setBytes_iterations (a : Nat) (bs : List Byte) : (s.setBytes a bs).iterations = s.iterations := by
  induction bs generalizing s a with
  | nil => rfl
  | cons b bs ih => simp [State.setBytes, ih]
@[simp] theorem State.setBytes_outputs (a : Nat) (bs : List Byte) : (s.setBytes a bs).outputs = s.outputs := by
  induction bs generalizing s a with
  | nil => rfl
  | cons b bs ih => simp [State.setBytes, ih]

theorem State.setBytes_eq (a : Nat) (bs : List Byte) :
    s.setBytes a bs = { s with mem := (s.setBytes a bs).mem } := by
  induction bs generalizing s a with
  | nil => rfl
  | cons b bs ih => exact (ih (s.setByte a b) (a + 1)).trans rfl

/-! ### What the accessors read -/

/-- A byte read depends on memory and the launch parameters alone. -/
theorem State.byteAt_congr {s t : State} (hm : t.mem = s.mem) (hp : t.params = s.params) (a : Nat) :
    t.byteAt a = s.byteAt a := by
  unfold State.byteAt; rw [hm, hp]

/-- A register read depends on the register file alone. -/
theorem State.reg_congr {s t : State} (hv : t.v = s.v) (x : Reg) : t.reg x = s.reg x := by
  unfold State.reg; rw [hv]

/-- The coming inputs depend on the schedule and the iteration count alone. -/
theorem State.input_congr {s t : State} (hi : t.inputs = s.inputs) (hn : t.iterations = s.iterations) :
    t.input = s.input := by
  unfold State.input; rw [hi, hn]

@[simp] theorem State.setByte_reg (a : Nat) (b : Byte) (q : Reg) : (s.setByte a b).reg q = s.reg q := rfl
@[simp] theorem State.setByte_input (a : Nat) (b : Byte) : (s.setByte a b).input = s.input := rfl
@[simp] theorem State.setReg_byteAt (x : Reg) (b : Byte) (m : Nat) : (s.setReg x b).byteAt m = s.byteAt m := rfl
@[simp] theorem State.setReg_input (x : Reg) (b : Byte) : (s.setReg x b).input = s.input := rfl
@[simp] theorem State.setRegsUpTo_byteAt (x : Reg) (bs : List Byte) (m : Nat) : (s.setRegsUpTo x bs).byteAt m = s.byteAt m := rfl
@[simp] theorem State.setRegsUpTo_input (x : Reg) (bs : List Byte) : (s.setRegsUpTo x bs).input = s.input := rfl
@[simp] theorem State.setI_byteAt (a : Word) (m : Nat) : (s.setI a).byteAt m = s.byteAt m := rfl
@[simp] theorem State.setI_reg (a : Word) (q : Reg) : (s.setI a).reg q = s.reg q := rfl
@[simp] theorem State.setI_input (a : Word) : (s.setI a).input = s.input := rfl
@[simp] theorem State.setDt_byteAt (b : Byte) (m : Nat) : (s.setDt b).byteAt m = s.byteAt m := rfl
@[simp] theorem State.setDt_reg (b : Byte) (q : Reg) : (s.setDt b).reg q = s.reg q := rfl
@[simp] theorem State.setDt_input (b : Byte) : (s.setDt b).input = s.input := rfl
@[simp] theorem State.setSt_byteAt (b : Byte) (m : Nat) : (s.setSt b).byteAt m = s.byteAt m := rfl
@[simp] theorem State.setSt_reg (b : Byte) (q : Reg) : (s.setSt b).reg q = s.reg q := rfl
@[simp] theorem State.setSt_input (b : Byte) : (s.setSt b).input = s.input := rfl
@[simp] theorem State.advance_byteAt (m : Nat) : (s.advance).byteAt m = s.byteAt m := rfl
@[simp] theorem State.advance_reg (q : Reg) : (s.advance).reg q = s.reg q := rfl
@[simp] theorem State.advance_input : (s.advance).input = s.input := rfl
@[simp] theorem State.skipIf_byteAt (c : Bool) (m : Nat) : (s.skipIf c).byteAt m = s.byteAt m := rfl
@[simp] theorem State.skipIf_reg (c : Bool) (q : Reg) : (s.skipIf c).reg q = s.reg q := rfl
@[simp] theorem State.skipIf_input (c : Bool) : (s.skipIf c).input = s.input := rfl
@[simp] theorem State.jump_byteAt (a : Word) (m : Nat) : (s.jump a).byteAt m = s.byteAt m := rfl
@[simp] theorem State.jump_reg (a : Word) (q : Reg) : (s.jump a).reg q = s.reg q := rfl
@[simp] theorem State.jump_input (a : Word) : (s.jump a).input = s.input := rfl
@[simp] theorem State.push_byteAt (a : Word) (m : Nat) : (s.push a).byteAt m = s.byteAt m := rfl
@[simp] theorem State.push_reg (a : Word) (q : Reg) : (s.push a).reg q = s.reg q := rfl
@[simp] theorem State.push_input (a : Word) : (s.push a).input = s.input := rfl
@[simp] theorem State.signalRedraw_byteAt (m : Nat) : (s.signalRedraw).byteAt m = s.byteAt m := rfl
@[simp] theorem State.signalRedraw_reg (q : Reg) : (s.signalRedraw).reg q = s.reg q := rfl
@[simp] theorem State.signalRedraw_input : (s.signalRedraw).input = s.input := rfl
@[simp] theorem State.block_byteAt (m : Nat) : (s.block).byteAt m = s.byteAt m := rfl
@[simp] theorem State.block_reg (q : Reg) : (s.block).reg q = s.reg q := rfl
@[simp] theorem State.block_input : (s.block).input = s.input := rfl
@[simp] theorem State.raise_byteAt (k : FaultKind) (w : Option Word) (n : Option Nat) (m : Nat) : (s.raise k w n).byteAt m = s.byteAt m := rfl
@[simp] theorem State.raise_reg (k : FaultKind) (w : Option Word) (n : Option Nat) (q : Reg) : (s.raise k w n).reg q = s.reg q := rfl
@[simp] theorem State.raise_input (k : FaultKind) (w : Option Word) (n : Option Nat) : (s.raise k w n).input = s.input := rfl
@[simp] theorem State.raiseIn_byteAt (ins : Instr) (k : FaultKind) (n : Option Nat) (m : Nat) : (s.raiseIn ins k n).byteAt m = s.byteAt m := rfl
@[simp] theorem State.raiseIn_reg (ins : Instr) (k : FaultKind) (n : Option Nat) (q : Reg) : (s.raiseIn ins k n).reg q = s.reg q := rfl
@[simp] theorem State.raiseIn_input (ins : Instr) (k : FaultKind) (n : Option Nat) : (s.raiseIn ins k n).input = s.input := rfl
@[simp] theorem State.setFb_byteAt (g : Framebuffer) (m : Nat) : (s.setFb g).byteAt m = s.byteAt m := rfl
@[simp] theorem State.setFb_reg (g : Framebuffer) (q : Reg) : (s.setFb g).reg q = s.reg q := rfl
@[simp] theorem State.setFb_input (g : Framebuffer) : (s.setFb g).input = s.input := rfl
@[simp] theorem State.resultThenFlag_byteAt (x : Reg) (r f : Byte) (m : Nat) : (s.resultThenFlag x r f).byteAt m = s.byteAt m := rfl
@[simp] theorem State.resultThenFlag_input (x : Reg) (r f : Byte) : (s.resultThenFlag x r f).input = s.input := rfl
@[simp] theorem State.flagThenResult_byteAt (x : Reg) (r f : Byte) (m : Nat) : (s.flagThenResult x r f).byteAt m = s.byteAt m := rfl
@[simp] theorem State.flagThenResult_input (x : Reg) (r f : Byte) : (s.flagThenResult x r f).input = s.input := rfl
@[simp] theorem State.emit_byteAt (o : Output) (m : Nat) : (s.emit o).byteAt m = s.byteAt m := rfl
@[simp] theorem State.emit_reg (o : Output) (q : Reg) : (s.emit o).reg q = s.reg q := rfl
@[simp] theorem State.emit_input (o : Output) : (s.emit o).input = s.input := rfl
@[simp] theorem State.beginCycle_byteAt (m : Nat) : (s.beginCycle).byteAt m = s.byteAt m := rfl
@[simp] theorem State.beginCycle_reg (q : Reg) : (s.beginCycle).reg q = s.reg q := rfl
@[simp] theorem State.beginCycle_input : (s.beginCycle).input = s.input := rfl
@[simp] theorem State.endIteration_byteAt (m : Nat) : (s.endIteration).byteAt m = s.byteAt m := rfl
@[simp] theorem State.endIteration_reg (q : Reg) : (s.endIteration).reg q = s.reg q := rfl
@[simp] theorem quitRun_byteAt (m : Nat) : (quitRun s).byteAt m = s.byteAt m := rfl
@[simp] theorem quitRun_reg (q : Reg) : (quitRun s).reg q = s.reg q := rfl
@[simp] theorem quitRun_input : (quitRun s).input = s.input := rfl
@[simp] theorem State.setBytes_reg (a : Nat) (bs : List Byte) (q : Reg) : (s.setBytes a bs).reg q = s.reg q :=
  State.reg_congr (by simp) q
@[simp] theorem State.setBytes_input (a : Nat) (bs : List Byte) : (s.setBytes a bs).input = s.input :=
  State.input_congr (by simp) (by simp)
end Sys2Proof.Machine
end

