-- ==== Sys2Proof/Laws/Registers.lean ====
section
/-! SUPPORT. Register reads after register writes, the flag computations in numbers, the pop of the stack. -/

namespace Sys2Proof.Machine

variable {s : State} {x y r : Reg} {a b : Byte}

/-! ### Reads after writes -/

@[simp] theorem State.reg_setReg_same : (s.setReg x b).reg x = b := by simp [State.reg, State.setReg]

theorem State.reg_setReg_other (h : r ≠ x) : (s.setReg x b).reg r = s.reg r := by
  have : x.val ≠ r.val := fun e => h (Fin.ext e.symm)
  simp [State.reg, State.setReg, this]

theorem State.reg_setReg : (s.setReg x b).reg r = if r = x then b else s.reg r := by
  split
  · next h => rw [h, State.reg_setReg_same]
  · next h => exact State.reg_setReg_other h

/-- The result then the flag: VF ends as the flag (R113). -/
theorem State.reg_resultThenFlag {f : Byte} :
    (s.resultThenFlag x a f).reg r = if r = VF then f else if r = x then a else s.reg r := by
  rw [State.resultThenFlag, State.reg_setReg, State.reg_setReg]

/-- The flag then the result: VF ends as the result when x is VF (R113). -/
theorem State.reg_flagThenResult {f : Byte} :
    (s.flagThenResult x a f).reg r = if r = x then a else if r = VF then f else s.reg r := by
  rw [State.flagThenResult, State.reg_setReg, State.reg_setReg]

theorem State.reg_setRegsUpTo {bs : List Byte} :
    (s.setRegsUpTo x bs).reg r = if r ≤ x then bs.getD r.val 0 else s.reg r := by
  simp only [State.reg, State.setRegsUpTo, Vector.getElem_ofFn, Fin.val_fin_le]

@[simp] theorem State.regsUpTo_length : (s.regsUpTo x).length = x.val + 1 := by
  have := x.isLt
  simp only [State.regsUpTo, List.length_take, Vector.length_toList]; omega

theorem State.regsUpTo_getElem {k : Nat} (hk : k < (s.regsUpTo x).length) :
    (s.regsUpTo x)[k] = s.reg ⟨k, by have := x.isLt; rw [State.regsUpTo_length] at hk; omega⟩ := by
  simp [State.regsUpTo, State.reg]

/-- Two register files that read the same are the same. -/
theorem State.v_ext {s t : State} (h : ∀ r, t.reg r = s.reg r) : t.v = s.v := by
  apply Vector.ext
  intro k hk
  exact h ⟨k, hk⟩

/-! ### Flags and results in numbers -/

@[simp] theorem flagByte_true : flagByte true = 1 := rfl
@[simp] theorem flagByte_false : flagByte false = 0 := rfl

theorem sumByte_toNat : (sumByte a b).toNat = (a.toNat + b.toNat) % 256 := by
  simp [sumByte, exactSum]

theorem carryFlag_eq : carryFlag a b = if a.toNat + b.toNat ≥ 256 then 1 else 0 := by
  unfold carryFlag exactSum flagByte; split <;> simp_all

theorem diffByte_toNat : ((diffByte a b).toNat : Int) = ((a.toNat : Int) - b.toNat) % 256 := by
  simp [diffByte, exactDiff, BitVec.toNat_ofInt]
  omega

theorem noBorrowFlag_eq : noBorrowFlag a b = if b.toNat ≤ a.toNat then 1 else 0 := by
  unfold noBorrowFlag exactDiff flagByte
  by_cases h : b.toNat ≤ a.toNat
  · rw [if_pos h, if_pos (by simpa using h)]
  · rw [if_neg h, if_neg (by simpa using h)]

theorem shrByte_toNat : (shrByte a).toNat = a.toNat / 2 := by
  simp [shrByte, Nat.shiftRight_eq_div_pow]

theorem shrFlag_toNat : (shrFlag a).toNat = a.toNat % 2 := by
  simp [shrFlag, Nat.and_one_is_mod]

theorem shlByte_toNat : (shlByte a).toNat = a.toNat * 2 % 256 := by
  simp [shlByte, Nat.shiftLeft_eq]

theorem shlFlag_toNat : (shlFlag a).toNat = a.toNat / 128 := by
  have := a.isLt
  simp [shlFlag, Nat.shiftRight_eq_div_pow, Nat.and_one_is_mod]; omega

/-! ### The stack -/

theorem State.pop_eq_none : s.pop = none ↔ s.stack = [] := by
  unfold State.pop
  cases h : s.stack.getLast? with
  | none => simpa using h
  | some a => simp only [reduceCtorEq, false_iff]; intro e; simp [e] at h

theorem State.pop_eq_some {w : Word} {t : State} :
    s.pop = some (w, t) ↔ ∃ l, s.stack = l ++ [w] ∧ t = { s with stack := l } := by
  unfold State.pop
  constructor
  · split
    · simp
    · next a h =>
      rintro ⟨⟩
      exact ⟨s.stack.dropLast, by rw [List.dropLast_append_getLast? _ h], rfl⟩
  · rintro ⟨l, h, rfl⟩
    simp [h]

end Sys2Proof.Machine
end

