-- ==== Sys2Proof/Laws/Display.lean ====
section
/-! SUPPORT. The draw function in closed form: each cell is toggled exactly where the sprite covers it, and there is a
collision exactly where a covered cell was lit (spec/43_display.md R136, R137, R142). -/

namespace Sys2Proof.Machine

open Sys2Proof.Safety

theorem cell_setCell (fb : Framebuffer) (r r' : Fin 32) (c c' : Fin 64) (b : Bool) :
    cell (setCell fb r c b) r' c' = if r' = r ∧ c' = c then b else cell fb r' c' := by
  unfold cell setCell
  by_cases hr : r' = r
  · subst hr
    by_cases hc : c' = c
    · subst hc; simp
    · have : c.val ≠ c'.val := fun e => hc (Fin.ext e.symm)
      simp [hc, this]
  · have : r.val ≠ r'.val := fun e => hr (Fin.ext e.symm)
    simp [hr, this]

/-- Two framebuffers with the same cells are the same. -/
theorem framebuffer_ext {f g : Framebuffer} (h : ∀ r c, cell f r c = cell g r c) : f = g := by
  apply Vector.ext
  intro i hi
  apply Vector.ext
  intro j hj
  exact h ⟨i, hi⟩ ⟨j, hj⟩

@[simp] theorem cell_blank (r : Fin 32) (c : Fin 64) : cell blankFramebuffer r c = false := by
  simp [cell, blankFramebuffer]

/-- A step of drawing from `p` to `q` toggles the cells of `S` and collides where a cell of `S` was lit. -/
structure Toggles (S : Fin 32 → Fin 64 → Prop) (p q : Framebuffer × Bool) : Prop where
  on : ∀ r c, S r c → cell q.1 r c = !cell p.1 r c
  off : ∀ r c, ¬S r c → cell q.1 r c = cell p.1 r c
  collides : q.2 = true ↔ p.2 = true ∨ ∃ r c, S r c ∧ cell p.1 r c = true

theorem Toggles.congr {S T : Fin 32 → Fin 64 → Prop} {p q : Framebuffer × Bool} (h : Toggles S p q)
    (e : ∀ r c, S r c ↔ T r c) : Toggles T p q := by
  have : S = T := funext fun r => funext fun c => propext (e r c)
  exact this ▸ h

theorem Toggles.refl (p : Framebuffer × Bool) : Toggles (fun _ _ => False) p p :=
  ⟨by simp, by simp, by simp⟩

/-- Toggling disjoint sets one after the other toggles their union. -/
theorem Toggles.trans {S T : Fin 32 → Fin 64 → Prop} {p q u : Framebuffer × Bool} (h : Toggles S p q)
    (k : Toggles T q u) (d : ∀ r c, S r c → ¬T r c) : Toggles (fun r c => S r c ∨ T r c) p u := by
  refine ⟨fun r c => ?_, fun r c hn => ?_, ?_⟩
  · rintro (hs | ht)
    · rw [k.off r c (d r c hs), h.on r c hs]
    · rw [k.on r c ht, h.off r c fun hs => d r c hs ht]
  · rw [k.off r c fun ht => hn (.inr ht), h.off r c fun hs => hn (.inl hs)]
  · rw [k.collides, h.collides]
    constructor
    · rintro ((hp | ⟨r, c, hs, hl⟩) | ⟨r, c, ht, hl⟩)
      · exact .inl hp
      · exact .inr ⟨r, c, .inl hs, hl⟩
      · rw [h.off r c fun hs => d r c hs ht] at hl
        exact .inr ⟨r, c, .inr ht, hl⟩
    · rintro (hp | ⟨r, c, hs | ht, hl⟩)
      · exact .inl (.inl hp)
      · exact .inl (.inr ⟨r, c, hs, hl⟩)
      · refine .inr ⟨r, c, ht, ?_⟩
        rwa [h.off r c fun hs => d r c hs ht]

/-- One sprite bit toggles its one cell, where the bit is set. -/
theorem plot_toggles (p : Framebuffer × Bool) (r : Fin 32) (c : Fin 64) (bit : Bool) :
    Toggles (fun r' c' => bit = true ∧ r' = r ∧ c' = c) p (plot p r c bit) := by
  cases bit with
  | false =>
    refine ⟨by simp, fun r' c' _ => ?_, by simp [plot]⟩
    simp only [plot, Bool.xor_false, cell_setCell]
    split
    · next h => rw [h.1, h.2]
    · rfl
  | true =>
    refine ⟨?_, fun r' c' h => ?_, ?_⟩
    · rintro r' c' ⟨-, rfl, rfl⟩; simp [plot, cell_setCell]
    · simp only [true_and] at h; simp [plot, cell_setCell, h]
    · simp [plot]

/-- Plotting the bits of the columns listed toggles the cells of the set ones. -/
theorem plots_toggle (x0 : Nat) (r : Fin 32) (byte : Byte) (cols : List Nat) (hc : ∀ k ∈ cols, k < 8)
    (hd : cols.Nodup) (p : Framebuffer × Bool) :
    Toggles (fun r' c' => r' = r ∧ ∃ k ∈ cols, c'.val = (x0 + k) % 64 ∧ byte.getLsbD (7 - k) = true) p
      (cols.foldl (fun q k => plot q r (targetCol x0 k) (spriteBit byte k)) p) := by
  induction cols generalizing p with
  | nil => exact (Toggles.refl p).congr (by simp)
  | cons k ks ih =>
    obtain ⟨hk, hd⟩ := List.nodup_cons.1 hd
    have key := (plot_toggles p r (targetCol x0 k) (spriteBit byte k)).trans
      (ih (fun j hj => hc j (by simp [hj])) hd _) ?_
    · refine key.congr fun r' c' => ?_
      simp only [spriteBit, targetCol, Fin.ext_iff, Fin.val_ofNat, List.mem_cons, exists_eq_or_imp]
      tauto
    · rintro r' c' ⟨-, rfl, rfl⟩ ⟨-, j, hj, e, -⟩
      have h1 := hc k (by simp)
      have h2 := hc j (by simp [hj])
      have h3 : j ≠ k := fun h => hk (h ▸ hj)
      simp only [targetCol, Fin.val_ofNat] at e
      omega

/-- One sprite row. -/
theorem drawRow_toggles (x0 : Nat) (r : Fin 32) (byte : Byte) (p : Framebuffer × Bool) :
    Toggles (fun r' c' => r' = r ∧ ∃ k < 8, c'.val = (x0 + k) % 64 ∧ byte.getLsbD (7 - k) = true) p
      (drawRow x0 r byte p) := by
  refine (plots_toggle x0 r byte [0, 1, 2, 3, 4, 5, 6, 7] (by decide) (by decide) p).congr fun r' c' => ?_
  refine and_congr_right fun _ => exists_congr fun k => and_congr_left fun _ => ?_
  simp only [List.mem_cons, List.not_mem_nil, or_false]; omega

/-- The rows of a sprite of at most 32 rows, from row number `row` on. -/
theorem drawRows_toggles (x0 y0 : Nat) (sprite : List Byte) (row : Nat) (h : sprite.length ≤ 32)
    (p : Framebuffer × Bool) :
    Toggles (fun r c => ∃ k, ∃ hk : k < sprite.length, ∃ col < 8, r.val = (y0 + (row + k)) % 32 ∧
        c.val = (x0 + col) % 64 ∧ sprite[k].getLsbD (7 - col) = true) p
      (drawRows x0 y0 row sprite p) := by
  induction sprite generalizing row p with
  | nil => exact (Toggles.refl p).congr (by simp)
  | cons byte rest ih =>
    rw [List.length_cons] at h
    have key := (drawRow_toggles x0 (targetRow y0 row) byte p).trans (ih (row + 1) (by omega) _) ?_
    · refine key.congr fun r c => ?_
      constructor
      · rintro (⟨rfl, col, hc, e⟩ | ⟨k, hk, col, hc, e1, e2⟩)
        · exact ⟨0, by simp, col, hc, by simp [targetRow], e⟩
        · exact ⟨k + 1, by simpa using hk, col, hc, by rw [e1]; congr 2; omega, by simpa using e2⟩
      · rintro ⟨k, hk, col, hc, e1, e2⟩
        cases k with
        | zero => exact .inl ⟨Fin.ext (by simpa [targetRow] using e1), col, hc, by simpa using e2⟩
        | succ k => exact .inr ⟨k, by simpa using hk, col, hc, by rw [e1]; congr 2; omega, by simpa using e2⟩
    · rintro r c ⟨rfl, -⟩ ⟨k, hk, col, hc, e1, -⟩
      simp only [targetRow, Fin.val_ofNat] at e1
      omega

/-- The draw function (R136, R137): what `draw` answers, in one statement. -/
theorem draw_toggles (fb : Framebuffer) (x0 y0 n : Nat) (bytes : Nat → Byte) (hn : n ≤ 32) :
    Toggles (Covers bytes x0 y0 n) (fb, false) (draw fb x0 y0 ((List.range n).map bytes)) := by
  refine (drawRows_toggles x0 y0 _ 0 (by simpa using hn) (fb, false)).congr fun r c => ?_
  simp only [Covers, List.length_map, List.length_range, List.getElem_map, List.getElem_range, Nat.zero_add,
    exists_prop]

end Sys2Proof.Machine
end

