-- ==== Sys2Proof/Laws/Memory.lean ====
section
/-! SUPPORT. Memory: read after write, the canonical form kept, and what MemRead and MemWrite answer. -/

namespace Sys2Proof.Machine

variable {p : LaunchParams} {m : List Host.Cell} {a b : Nat} {x : Byte} {s t : State}

/-! ### The list of cells -/

theorem Memory.read_erase_other (h : b ≠ a) : Memory.read p (Memory.erase m a) b = Memory.read p m b := by
  induction m with
  | nil => rfl
  | cons c m ih =>
    unfold Memory.erase at ih ⊢
    by_cases hc : c.1 = a
    · have hb : c.1 ≠ b := fun e => h (e ▸ hc)
      simp [hc, Memory.read, ih, Ne.symm h]
    · simp [hc, Memory.read, ih]

theorem Memory.read_erase_same : Memory.read p (Memory.erase m a) a = Memory.resetByte p a := by
  induction m with
  | nil => rfl
  | cons c m ih =>
    unfold Memory.erase at ih ⊢
    by_cases hc : c.1 = a <;> simp [hc, Memory.read, ih]

theorem Memory.read_insert_other (h : b ≠ a) : Memory.read p (Memory.insert m a x) b = Memory.read p m b := by
  induction m with
  | nil => simp [Memory.insert, Memory.read, Ne.symm h]
  | cons c m ih =>
    unfold Memory.insert
    split
    · simp [Memory.read, Ne.symm h]
    · simp [Memory.read, ih]

theorem Memory.read_insert_same (h : ∀ c ∈ m, c.1 ≠ a) : Memory.read p (Memory.insert m a x) a = x := by
  induction m with
  | nil => simp [Memory.insert, Memory.read]
  | cons c m ih =>
    unfold Memory.insert
    split
    · simp [Memory.read]
    · simp [Memory.read, h c (by simp), ih fun d hd => h d (by simp [hd])]

theorem Memory.mem_erase {c : Host.Cell} : c ∈ Memory.erase m a ↔ c ∈ m ∧ c.1 ≠ a := by
  simp [Memory.erase]

theorem Memory.mem_insert {c : Host.Cell} : c ∈ Memory.insert m a x ↔ c = (a, x) ∨ c ∈ m := by
  induction m with
  | nil => simp [Memory.insert]
  | cons d m ih =>
    unfold Memory.insert
    split
    · simp
    · simp only [List.mem_cons, ih]; tauto

/-- Reading a cell just written gives the byte written, in every memory (R58). -/
theorem Memory.read_write_same : Memory.read p (Memory.write p m a x) a = x := by
  unfold Memory.write
  split
  · next h => rw [Memory.read_erase_same, h]
  · exact Memory.read_insert_same fun c hc => (Memory.mem_erase.1 hc).2

/-- A write changes only the addressed cell, in every memory (R58). -/
theorem Memory.read_write_other (h : b ≠ a) : Memory.read p (Memory.write p m a x) b = Memory.read p m b := by
  unfold Memory.write
  split
  · exact Memory.read_erase_other h
  · rw [Memory.read_insert_other h, Memory.read_erase_other h]

theorem Memory.insert_pairwise (hm : m.Pairwise fun c d => c.1 < d.1) (ha : ∀ c ∈ m, c.1 ≠ a) :
    (Memory.insert m a x).Pairwise fun c d => c.1 < d.1 := by
  induction m with
  | nil => simp [Memory.insert]
  | cons c m ih =>
    obtain ⟨hc, hm⟩ := List.pairwise_cons.1 hm
    unfold Memory.insert
    split
    · next h =>
      refine List.pairwise_cons.2 ⟨fun d hd => ?_, List.pairwise_cons.2 ⟨hc, hm⟩⟩
      rcases List.mem_cons.1 hd with rfl | hd
      · exact h
      · exact lt_trans h (hc d hd)
    · next h =>
      have hne : c.1 ≠ a := ha c (by simp)
      refine List.pairwise_cons.2 ⟨fun d hd => ?_, ih hm fun d hd => ha d (by simp [hd])⟩
      rcases Memory.mem_insert.1 hd with rfl | hd
      · exact lt_of_le_of_ne (not_lt.1 h) hne
      · exact hc d hd

/-- A write inside the address space keeps the canonical form. -/
theorem Memory.write_wf (hm : Memory.wf p m) (ha : a < Config.memSize) : Memory.wf p (Memory.write p m a x) := by
  obtain ⟨hs, hc⟩ := hm
  have he : (Memory.erase m a).Pairwise fun c d => c.1 < d.1 := hs.filter _
  unfold Memory.write
  split
  · exact ⟨he, fun c h => hc c (Memory.mem_erase.1 h).1⟩
  · next hx =>
    refine ⟨Memory.insert_pairwise he fun c h => (Memory.mem_erase.1 h).2, fun c h => ?_⟩
    rcases Memory.mem_insert.1 h with rfl | h
    · exact ⟨ha, hx⟩
    · exact hc c (Memory.mem_erase.1 h).1

/-- An address the canonical form does not list reads as at reset. -/
theorem Memory.read_unlisted (h : ∀ c ∈ m, c.1 ≠ a) : Memory.read p m a = Memory.resetByte p a := by
  induction m with
  | nil => rfl
  | cons c m ih => simp [Memory.read, h c (by simp), ih fun d hd => h d (by simp [hd])]

/-! ### Bytes of the state -/

@[simp] theorem State.byteAt_setByte_same : (s.setByte a x).byteAt a = x := Memory.read_write_same

theorem State.byteAt_setByte_other (h : b ≠ a) : (s.setByte a x).byteAt b = s.byteAt b := Memory.read_write_other h

/-- The bytes outside the stored ones are unchanged. -/
theorem State.byteAt_setBytes_outside {bs : List Byte} (h : b < a ∨ a + bs.length ≤ b) :
    (s.setBytes a bs).byteAt b = s.byteAt b := by
  induction bs generalizing s a with
  | nil => rfl
  | cons c bs ih =>
    rw [List.length_cons] at h
    rw [State.setBytes, ih (by omega), State.byteAt_setByte_other (by omega)]

/-- The bytes stored read back, in order. -/
theorem State.byteAt_setBytes_inside {bs : List Byte} {k : Nat} (hk : k < bs.length) :
    (s.setBytes a bs).byteAt (a + k) = bs[k] := by
  induction bs generalizing s a k with
  | nil => simp at hk
  | cons c bs ih =>
    rw [State.setBytes]
    cases k with
    | zero => rw [State.byteAt_setBytes_outside (by omega)]; simp
    | succ k =>
      rw [show a + (k + 1) = a + 1 + k by omega, ih (by simpa using hk), List.getElem_cons_succ]

/-- Storing bytes inside the address space keeps the canonical form. -/
theorem State.setBytes_wf {bs : List Byte} (h : Memory.wf s.params s.mem) (hb : a + bs.length ≤ Config.memSize) :
    Memory.wf s.params (s.setBytes a bs).mem := by
  induction bs generalizing s a with
  | nil => exact h
  | cons c bs ih =>
    rw [List.length_cons] at hb
    exact ih (s := s.setByte a c) (Memory.write_wf h (by omega)) (by omega)

/-! ### MemRead and MemWrite -/

/-- The bounds check fails exactly where the access reaches past the last cell (R56). -/
theorem firstOutside_eq_none {n : Nat} : firstOutside a n = none ↔ n = 0 ∨ a + n ≤ Config.memSize := by
  unfold firstOutside; split <;> simp <;> omega

theorem firstOutside_eq_some {n : Nat} {bad : Nat} :
    firstOutside a n = some bad ↔ (0 < n ∧ Config.memSize < a + n) ∧ bad = max a Config.memSize := by
  unfold firstOutside; split <;> simp <;> omega

/-- MemRead answers the bytes at a, a+1, ... exactly where the whole access is inside memory (R56). -/
theorem State.memRead_eq_ok {n : Nat} {bs : List Byte} :
    s.memRead a n = .ok bs ↔ (n = 0 ∨ a + n ≤ Config.memSize) ∧ bs = (List.range n).map fun k => s.byteAt (a + k) := by
  unfold State.memRead
  cases h : firstOutside a n with
  | none => simp [firstOutside_eq_none.1 h, eq_comm]
  | some bad => have := (firstOutside_eq_some.1 h).1; simp; omega

theorem State.memRead_eq_error {n : Nat} {bad : Nat} :
    s.memRead a n = .error bad ↔ (0 < n ∧ Config.memSize < a + n) ∧ bad = max a Config.memSize := by
  unfold State.memRead
  cases h : firstOutside a n with
  | none => have := firstOutside_eq_none.1 h; simp; omega
  | some b => have := firstOutside_eq_some.1 h; simp; omega

/-- MemWrite stores the bytes exactly where the whole access is inside memory (R56). -/
theorem State.memWrite_eq_ok {bs : List Byte} :
    s.memWrite a bs = .ok t ↔ (bs.length = 0 ∨ a + bs.length ≤ Config.memSize) ∧ t = s.setBytes a bs := by
  unfold State.memWrite
  cases h : firstOutside a bs.length with
  | none =>
    constructor
    · rintro ⟨⟩; exact ⟨firstOutside_eq_none.1 h, rfl⟩
    · rintro ⟨-, rfl⟩; rfl
  | some bad => have := (firstOutside_eq_some.1 h).1; simp only [reduceCtorEq, false_iff]; omega

theorem State.memWrite_eq_error {bs : List Byte} {bad : Nat} :
    s.memWrite a bs = .error bad ↔ (0 < bs.length ∧ Config.memSize < a + bs.length) ∧ bad = max a Config.memSize := by
  unfold State.memWrite
  cases h : firstOutside a bs.length with
  | none => have := firstOutside_eq_none.1 h; simp only [reduceCtorEq, false_iff]; omega
  | some b => have := firstOutside_eq_some.1 h; simp only [Except.error.injEq]; omega

/-- The memory a MemWrite leaves is canonical. -/
theorem State.memWrite_wf {bs : List Byte} (h : Memory.wf s.params s.mem) (hw : s.memWrite a bs = .ok t) :
    Memory.wf t.params t.mem := by
  obtain ⟨hb, rfl⟩ := State.memWrite_eq_ok.1 hw
  rcases hb with hb | hb
  · rw [List.eq_nil_of_length_eq_zero hb]; exact h
  · rw [State.setBytes_params]; exact State.setBytes_wf h hb

/-- The reset memory is canonical. -/
theorem State.initial_mem_wf (q : LaunchParams) : Memory.wf (State.initial q).params (State.initial q).mem :=
  ⟨List.Pairwise.nil, by simp [State.initial]⟩

/-- A loaded program leaves the canonical form (R201). -/
theorem load_wf {program : List Byte} (h : Memory.wf s.params s.mem) :
    Memory.wf (load program s).params (load program s).mem := by
  unfold load
  split
  · exact h
  · rw [State.setBytes_params]
    exact State.setBytes_wf h (by simp only [Config.maxProgram] at *; simp only [Config.programOffset, Config.memSize]; omega)

end Sys2Proof.Machine
end

