-- ==== Sys2Proof/Laws/Exec.lean ====
section
/-! SUPPORT. What the meanings with more than one outcome answer, and what a cycle and an iteration can do, each said
once. -/

namespace Sys2Proof.Machine

open Sys2Proof.Safety

variable {s t : State}

/-- RET faults on an empty stack and jumps to the popped address otherwise (R85). -/
theorem execRet_cases (s : State) :
    (s.stack = [] ∧ execRet s = .next (s.raiseIn .ret .emptyCallStack none)) ∨
      ∃ l a, s.stack = l ++ [a] ∧ execRet s = .next { s with stack := l, pc := a } := by
  unfold execRet
  cases h : s.pop with
  | none => exact .inl ⟨State.pop_eq_none.1 h, rfl⟩
  | some q =>
    obtain ⟨a, t⟩ := q
    obtain ⟨l, hl, rfl⟩ := State.pop_eq_some.1 h
    exact .inr ⟨l, a, hl, rfl⟩

/-- Fx1E faults on a sum above 0xFFFF and writes the sum to I otherwise (R121). -/
theorem execAddI_cases (x : Reg) (s : State) :
    (0xFFFF < s.i.toNat + (s.reg x).toNat ∧
        execAddI x s = .next (s.raiseIn (.addI x) .addressOverflow (some (s.i.toNat + (s.reg x).toNat)))) ∨
      (s.i.toNat + (s.reg x).toNat ≤ 0xFFFF ∧
        execAddI x s = .next (s.setI (BitVec.ofNat 16 (s.i.toNat + (s.reg x).toNat))).advance) := by
  unfold execAddI exactIPlus
  split
  · next h => exact .inl ⟨h, rfl⟩
  · next h => exact .inr ⟨not_lt.1 h, rfl⟩

/-- Fx33 faults where a byte of the access is outside memory and stores the three digits otherwise (R123). -/
theorem execLdB_cases (x : Reg) (s : State) :
    (4096 ≤ s.i.toNat + 2 ∧
        execLdB x s = .next (s.raiseIn (.ldB x) .outOfBoundsAccess (some (max s.i.toNat 4096)))) ∨
      (s.i.toNat + 2 < 4096 ∧ execLdB x s = .next (s.setBytes s.i.toNat (bcdDigits (s.reg x))).advance) := by
  unfold execLdB
  cases h : s.memWrite s.i.toNat (bcdDigits (s.reg x)) with
  | error a =>
    obtain ⟨⟨-, hb⟩, rfl⟩ := State.memWrite_eq_error.1 h
    exact .inl ⟨by simp [bcdDigits, Config.memSize] at hb; omega, rfl⟩
  | ok t =>
    obtain ⟨hb, rfl⟩ := State.memWrite_eq_ok.1 h
    exact .inr ⟨by simp [bcdDigits, Config.memSize] at hb; omega, rfl⟩

/-- Fx55 faults where a byte of the access is outside memory and stores V0..Vx otherwise (R124). -/
theorem execLdMemVx_cases (x : Reg) (s : State) :
    (4096 ≤ s.i.toNat + x.val ∧
        execLdMemVx x s = .next (s.raiseIn (.ldMemVx x) .outOfBoundsAccess (some (max s.i.toNat 4096)))) ∨
      (s.i.toNat + x.val < 4096 ∧
        execLdMemVx x s = .next ((s.setBytes s.i.toNat (s.regsUpTo x)).setI (s.iAfterBlock x)).advance) := by
  unfold execLdMemVx
  cases h : s.memWrite s.i.toNat (s.regsUpTo x) with
  | error a =>
    obtain ⟨⟨-, hb⟩, rfl⟩ := State.memWrite_eq_error.1 h
    rw [State.regsUpTo_length] at hb
    exact .inl ⟨by simp only [Config.memSize] at hb; omega, rfl⟩
  | ok t =>
    obtain ⟨hb, rfl⟩ := State.memWrite_eq_ok.1 h
    rw [State.regsUpTo_length] at hb
    exact .inr ⟨by simp only [Config.memSize] at hb; omega, rfl⟩

/-- Fx65 faults where a byte of the access is outside memory and loads V0..Vx otherwise (R125). -/
theorem execLdVxMem_cases (x : Reg) (s : State) :
    (4096 ≤ s.i.toNat + x.val ∧
        execLdVxMem x s = .next (s.raiseIn (.ldVxMem x) .outOfBoundsAccess (some (max s.i.toNat 4096)))) ∨
      (s.i.toNat + x.val < 4096 ∧
        execLdVxMem x s = .next ((s.setRegsUpTo x ((List.range (x.val + 1)).map fun k =>
          s.byteAt (s.i.toNat + k))).setI (s.iAfterBlock x)).advance) := by
  unfold execLdVxMem
  cases h : s.memRead s.i.toNat (x.val + 1) with
  | error a =>
    obtain ⟨⟨-, hb⟩, rfl⟩ := State.memRead_eq_error.1 h
    exact .inl ⟨by simp only [Config.memSize] at hb; omega, rfl⟩
  | ok bs =>
    obtain ⟨hb, rfl⟩ := State.memRead_eq_ok.1 h
    exact .inr ⟨by simp only [Config.memSize] at hb; omega, rfl⟩

/-- Dxyn faults where a sprite byte is outside memory and draws otherwise (R140). -/
theorem execDrw_cases (x y : Reg) (n : RowCount) (s : State) :
    ((0 < n.val ∧ 4096 < s.i.toNat + n.val) ∧
        execDrw x y n s = .next (s.raiseIn (.drw x y n) .outOfBoundsAccess (some (max s.i.toNat 4096)))) ∨
      ((n.val = 0 ∨ s.i.toNat + n.val ≤ 4096) ∧ ∃ q,
        q = draw s.fb (s.reg x).toNat (s.reg y).toNat ((List.range n.val).map fun k => s.byteAt (s.i.toNat + k)) ∧
        execDrw x y n s = .next ((((s.setFb q.1).setReg VF (flagByte q.2)).signalRedraw).advance)) := by
  unfold execDrw
  cases h : s.memRead s.i.toNat n.val with
  | error a =>
    obtain ⟨hb, rfl⟩ := State.memRead_eq_error.1 h
    exact .inl ⟨hb, rfl⟩
  | ok bs =>
    obtain ⟨hb, rfl⟩ := State.memRead_eq_ok.1 h
    exact .inr ⟨hb, _, rfl, rfl⟩

/-- Fx0A completes with the key of an event and is blocked without one (R154). -/
theorem execLdVxK_cases (x : Reg) (s : State) :
    (∃ k, s.input.keyEvent = some k ∧ execLdVxK x s = .next (s.setReg x (keyByte k)).advance) ∨
      (s.input.keyEvent = none ∧ execLdVxK x s = .next s.block) := by
  unfold execLdVxK
  split
  · next k h => exact .inl ⟨k, h, rfl⟩
  · next h => exact .inr ⟨h, rfl⟩

/-! ### Fetch, cycle, iteration -/

theorem State.fetch_eq_none : s.fetch = none ↔ 4095 ≤ s.pc.toNat := by
  unfold State.fetch Config.memSize
  split <;> simp only [true_iff, reduceCtorEq, false_iff] <;> omega

theorem State.fetch_eq_some {w : Word} :
    s.fetch = some w ↔ s.pc.toNat < 4095 ∧ w = wordOfBytes (s.byteAt s.pc.toNat) (s.byteAt (s.pc.toNat + 1)) := by
  unfold State.fetch Config.memSize
  split
  · simp only [reduceCtorEq, false_iff]; omega
  · simp only [Option.some.injEq, eq_comm, iff_and_self]; omega

/-- All a cycle can do: fault at the fetch, fault at decode, or run the instruction fetched (R71, R168). -/
theorem cycle_cases (s : State) :
    (s.fetch = none ∧ cycle s = .next (s.raise .outOfBoundsFetch none none)) ∨
      (∃ w e, s.fetch = some w ∧ decode w = .error e ∧ cycle s = .next (s.raise .unrecognisedOpcode (some w) none)) ∨
      ∃ w ins, s.fetch = some w ∧ decode w = .ok ins ∧ cycle s = exec ins s := by
  unfold cycle
  cases hf : s.fetch with
  | none => exact .inl ⟨rfl, rfl⟩
  | some w =>
    cases hd : decode w with
    | error e => exact .inr (.inl ⟨w, e, rfl, hd, by simp only [hd]⟩)
    | ok ins => exact .inr (.inr ⟨w, ins, rfl, hd, by simp only [hd]⟩)

/-- All an iteration can do: stop after the run's end, end the run by quit, or run a cycle and pace (R178). -/
theorem iterate_cases (s : State) :
    (∃ e, s.runEnd = some e ∧ iterate s = .fault (.runEnded e)) ∨
      (s.runEnd = none ∧ s.input.quit = true ∧ iterate s = .next (quitRun s).endIteration) ∨
      (Continues s ∧ ∃ t, cycle s.beginCycle = .next t ∧
        iterate s = .next (pace (elapsedMs s.input) t).endIteration) ∨
      (Continues s ∧ (∀ t, cycle s.beginCycle ≠ .next t) ∧ ∀ t, iterate s ≠ .next t) := by
  unfold iterate Continues
  cases hr : s.runEnd with
  | some e => exact .inl ⟨e, rfl, rfl⟩
  | none =>
    cases hq : s.input.quit with
    | true => exact .inr (.inl ⟨rfl, rfl, by simp⟩)
    | false =>
      cases hc : cycle s.beginCycle with
      | next t => exact .inr (.inr (.inl ⟨⟨rfl, rfl⟩, t, rfl, by simp⟩))
      | fault f => exact .inr (.inr (.inr ⟨⟨rfl, rfl⟩, by simp, by simp⟩))
      | refused r => exact .inr (.inr (.inr ⟨⟨rfl, rfl⟩, by simp, by simp⟩))

end Sys2Proof.Machine
end

