-- ==== Sys2Proof/Laws/Pacer.lean ====
section
/-! SUPPORT. The tick field by field, and the drain in closed form: it makes as many ticks as the lag holds frames. -/

namespace Sys2Proof.Machine

variable (s : State)

theorem frameMs_eq : frameMs = 50 / 3 := by
  rw [frameMs, Rat.mkRat_eq_div]; norm_num

theorem frameMs_pos : 0 < frameMs := by rw [frameMs_eq]; norm_num

theorem elapsedMs_nonneg (inp : IterInput) : 0 ≤ elapsedMs inp := by
  rw [elapsedMs, Rat.mkRat_eq_div]; positivity

/-! ### One tick -/

/-- The events one tick puts out (R180, R181). -/
def tickOutputs (s : State) : List Output :=
  (if s.redrawPending then [.present s.fb] else []) ++ if s.st = 1 then [.emitTone] else []

/-- A tick in one record (R180). -/
theorem tick_eq : tick s = { s with
    redrawPending := false
    st := if s.st = 0 then 0 else s.st - 1
    dt := if s.dt = 0 then 0 else s.dt - 1
    outputs := s.outputs ++ tickOutputs s } := by
  obtain ⟨v, i, pc, stack, dt, st, mem, fb, status, rp, lag, params, result, hq, inputs, iters, outs⟩ := s
  cases rp <;> by_cases h0 : st = 0 <;> by_cases h1 : st = 1 <;> by_cases hd : dt = 0 <;>
    simp_all [tick, tickDelay, tickSound, presentPending, State.emit, tickOutputs]

theorem byte_pred_toNat (b : Byte) : (if b = 0 then 0 else b - 1).toNat = b.toNat - 1 := by
  split
  · next h => simp [h]
  · next h =>
    have h' : b.toNat ≠ 0 := fun e => h (BitVec.eq_of_toNat_eq (by simpa using e))
    have := b.isLt
    rw [BitVec.toNat_sub]; simp; omega

/-! ### Several ticks -/

/-- `k` ticks in a row. -/
def ticks : Nat → State → State
  | 0, s => s
  | k + 1, s => ticks k (tick s)

/-- What `k` ticks leave: each timer `k` lower and not below 0, the pending redraw presented at the first, the tone at
the tick that takes ST from 1 to 0 (R180 to R182). -/
theorem ticks_eq (k : Nat) : ticks k s = { s with
    redrawPending := s.redrawPending && k == 0
    st := BitVec.ofNat 8 (s.st.toNat - k)
    dt := BitVec.ofNat 8 (s.dt.toNat - k)
    outputs := s.outputs ++ (if s.redrawPending ∧ 0 < k then [.present s.fb] else []) ++
      (if 1 ≤ s.st.toNat ∧ s.st.toNat ≤ k then [.emitTone] else []) } := by
  induction k generalizing s with
  | zero =>
    have h : ¬(1 ≤ s.st.toNat ∧ s.st.toNat ≤ 0) := by omega
    simp only [ticks, h, lt_irrefl, and_false, if_false, List.append_nil, beq_self_eq_true, Bool.and_true, Nat.sub_zero,
      BitVec.ofNat_toNat, BitVec.setWidth_eq]
  | succ k ih =>
    rw [ticks, ih, tick_eq]
    simp only [byte_pred_toNat, State.mk.injEq, true_and, Bool.false_and, Bool.false_eq_true, false_and,
      if_false, List.append_nil]
    refine ⟨by congr 1; omega, by congr 1; omega, by simp, ?_⟩
    have e1 : s.st = 1 ↔ s.st.toNat = 1 :=
      ⟨fun h => by rw [h]; rfl, fun h => BitVec.eq_of_toNat_eq (by simpa using h)⟩
    simp only [tickOutputs, e1, List.append_assoc]
    have hr : (s.redrawPending = true ∧ 0 < k + 1) ↔ s.redrawPending = true := by simp
    rw [if_congr hr rfl rfl]
    by_cases h1 : s.st.toNat = 1
    · have h2 : ¬(1 ≤ s.st.toNat - 1 ∧ s.st.toNat - 1 ≤ k) := by omega
      have h3 : 1 ≤ s.st.toNat ∧ s.st.toNat ≤ k + 1 := by omega
      rw [if_pos h1, if_neg h2, if_pos h3]
      simp
    · have h2 : (1 ≤ s.st.toNat - 1 ∧ s.st.toNat - 1 ≤ k) ↔ (1 ≤ s.st.toNat ∧ s.st.toNat ≤ k + 1) := by omega
      rw [if_neg h1, if_congr h2 rfl rfl]
      simp

/-- A tick does not look at the lag. -/
theorem tick_setLag (l : Rat) : tick { s with lag := l } = { tick s with lag := l } := by
  simp [tick_eq, tickOutputs]

theorem ticks_setLag (l : Rat) (k : Nat) : ticks k { s with lag := l } = { ticks k s with lag := l } := by
  simp [ticks_eq]

/-! ### The drain -/

/-- While the lag holds `k` frames, `k` rounds of the loop make `k` ticks. -/
theorem drain_eq (k : Nat) (h : (k : Rat) * frameMs ≤ s.lag) :
    drain k s = { ticks k s with lag := s.lag - k * frameMs } := by
  induction k generalizing s with
  | zero => simp [drain, ticks]
  | succ k ih =>
    push_cast at h
    have hk : (0 : Rat) ≤ k * frameMs := mul_nonneg (Nat.cast_nonneg k) frameMs_pos.le
    have h1 : frameMs ≤ s.lag := by linarith
    have hl : (tick { s with lag := s.lag - frameMs }).lag = s.lag - frameMs := by rw [tick_setLag]
    rw [drain, if_pos h1, ih _ (by rw [hl]; linarith), hl, tick_setLag, ticks_setLag, ticks]
    simp only [State.mk.injEq, true_and]
    push_cast
    refine ⟨?_, trivial⟩
    ring

theorem ticksDue_le {lag : Rat} (h : 0 ≤ lag) : (ticksDue lag : Rat) * frameMs ≤ lag := by
  have h0 : 0 ≤ (lag / frameMs).floor := Rat.le_floor_iff.2 (by simpa using div_nonneg h frameMs_pos.le)
  rw [← le_div_iff₀ frameMs_pos, ticksDue]
  have e : (((lag / frameMs).floor.toNat : Int) : Rat) = ((lag / frameMs).floor : Rat) := by rw [Int.toNat_of_nonneg h0]
  have : (((lag / frameMs).floor.toNat : Nat) : Rat) = ((lag / frameMs).floor : Rat) := by exact_mod_cast e
  rw [this]
  exact Rat.floor_le _

theorem lt_ticksDue_succ (lag : Rat) : lag < ((ticksDue lag : Rat) + 1) * frameMs := by
  rw [← div_lt_iff₀ frameMs_pos, ticksDue]
  have h1 : lag / frameMs < ((lag / frameMs).floor + 1 : Int) := Rat.lt_floor_add_one _
  push_cast at h1
  have h2 : ((lag / frameMs).floor : Rat) ≤ (((lag / frameMs).floor.toNat : Nat) : Rat) := by
    exact_mod_cast Int.self_le_toNat _
  linarith

/-- The accumulation and the drain of one iteration (R178, R183): as many ticks as the lag holds frames, and the rest
stays. -/
theorem accumulate_eq {ms : Rat} (h : 0 ≤ s.lag + ms) :
    accumulate ms s = { ticks (ticksDue (s.lag + ms)) s with
      lag := s.lag + ms - ticksDue (s.lag + ms) * frameMs } := by
  rw [accumulate, drain_eq _ _ (by exact ticksDue_le h), ticks_setLag]

/-- The lag left is at least 0 and below one frame (R38). -/
theorem accumulate_lag_bounds {ms : Rat} (h : 0 ≤ s.lag + ms) :
    0 ≤ (accumulate ms s).lag ∧ (accumulate ms s).lag < frameMs := by
  rw [accumulate_eq s h]
  have h1 := ticksDue_le h
  have h2 := lt_ticksDue_succ (s.lag + ms)
  exact ⟨by simp only; linarith, by simp only; linarith⟩

end Sys2Proof.Machine
end

