-- ==== Sys2Proof/Laws/PerInstr.lean ====
section
/-! SUPPORT. Statements made per instruction: the family Encoding says that an instruction's word holds the fixed bits of
its row of spec/opcode_table.json (spec/30_encoding.md R75), and its operands in the row's fields (R67, R68). -/

namespace Sys2Proof.Laws.Encoding

/-- The fixed bits of an instruction's row, as the table lists them: high bit, low bit, value. -/
def fixedBits : Instr → List (Nat × Nat × Nat)
  | .cls => [(15, 0, 224)]
  | .ret => [(15, 0, 238)]
  | .sys _ => [(15, 12, 0)]
  | .jp _ => [(15, 12, 1)]
  | .call _ => [(15, 12, 2)]
  | .seImm _ _ => [(15, 12, 3)]
  | .sneImm _ _ => [(15, 12, 4)]
  | .seReg _ _ => [(3, 0, 0), (15, 12, 5)]
  | .sneReg _ _ => [(3, 0, 0), (15, 12, 9)]
  | .ldImm _ _ => [(15, 12, 6)]
  | .addImm _ _ => [(15, 12, 7)]
  | .ldReg _ _ => [(3, 0, 0), (15, 12, 8)]
  | .orReg _ _ => [(3, 0, 1), (15, 12, 8)]
  | .andReg _ _ => [(3, 0, 2), (15, 12, 8)]
  | .xorReg _ _ => [(3, 0, 3), (15, 12, 8)]
  | .addReg _ _ => [(3, 0, 4), (15, 12, 8)]
  | .subReg _ _ => [(3, 0, 5), (15, 12, 8)]
  | .shrReg _ _ => [(3, 0, 6), (15, 12, 8)]
  | .subnReg _ _ => [(3, 0, 7), (15, 12, 8)]
  | .shlReg _ _ => [(3, 0, 14), (15, 12, 8)]
  | .ldI _ => [(15, 12, 10)]
  | .jpV0 _ => [(15, 12, 11)]
  | .rnd _ _ => [(15, 12, 12)]
  | .drw _ _ _ => [(15, 12, 13)]
  | .skp _ => [(7, 0, 158), (15, 12, 14)]
  | .sknp _ => [(7, 0, 161), (15, 12, 14)]
  | .ldVxDt _ => [(7, 0, 7), (15, 12, 15)]
  | .ldVxK _ => [(7, 0, 10), (15, 12, 15)]
  | .ldDtVx _ => [(7, 0, 21), (15, 12, 15)]
  | .ldStVx _ => [(7, 0, 24), (15, 12, 15)]
  | .addI _ => [(7, 0, 30), (15, 12, 15)]
  | .ldF _ => [(7, 0, 41), (15, 12, 15)]
  | .ldB _ => [(7, 0, 51), (15, 12, 15)]
  | .ldMemVx _ => [(7, 0, 85), (15, 12, 15)]
  | .ldVxMem _ => [(7, 0, 101), (15, 12, 15)]

/-- The operands of an instruction in its row's fields: high bit, low bit, value. -/
def operandBits : Instr → List (Nat × Nat × Nat)
  | .cls => []
  | .ret => []
  | .sys nnn => [(11, 0, nnn.toNat)]
  | .jp nnn => [(11, 0, nnn.toNat)]
  | .call nnn => [(11, 0, nnn.toNat)]
  | .seImm x nn => [(11, 8, x.val), (7, 0, nn.toNat)]
  | .sneImm x nn => [(11, 8, x.val), (7, 0, nn.toNat)]
  | .seReg x y => [(11, 8, x.val), (7, 4, y.val)]
  | .sneReg x y => [(11, 8, x.val), (7, 4, y.val)]
  | .ldImm x nn => [(11, 8, x.val), (7, 0, nn.toNat)]
  | .addImm x nn => [(11, 8, x.val), (7, 0, nn.toNat)]
  | .ldReg x y => [(11, 8, x.val), (7, 4, y.val)]
  | .orReg x y => [(11, 8, x.val), (7, 4, y.val)]
  | .andReg x y => [(11, 8, x.val), (7, 4, y.val)]
  | .xorReg x y => [(11, 8, x.val), (7, 4, y.val)]
  | .addReg x y => [(11, 8, x.val), (7, 4, y.val)]
  | .subReg x y => [(11, 8, x.val), (7, 4, y.val)]
  | .shrReg x y => [(11, 8, x.val), (7, 4, y.val)]
  | .subnReg x y => [(11, 8, x.val), (7, 4, y.val)]
  | .shlReg x y => [(11, 8, x.val), (7, 4, y.val)]
  | .ldI nnn => [(11, 0, nnn.toNat)]
  | .jpV0 nnn => [(11, 0, nnn.toNat)]
  | .rnd x nn => [(11, 8, x.val), (7, 0, nn.toNat)]
  | .drw x y n => [(11, 8, x.val), (7, 4, y.val), (3, 0, n.val)]
  | .skp x => [(11, 8, x.val)]
  | .sknp x => [(11, 8, x.val)]
  | .ldVxDt x => [(11, 8, x.val)]
  | .ldVxK x => [(11, 8, x.val)]
  | .ldDtVx x => [(11, 8, x.val)]
  | .ldStVx x => [(11, 8, x.val)]
  | .addI x => [(11, 8, x.val)]
  | .ldF x => [(11, 8, x.val)]
  | .ldB x => [(11, 8, x.val)]
  | .ldMemVx x => [(11, 8, x.val)]
  | .ldVxMem x => [(11, 8, x.val)]

/-- The instruction's word holds its row's fixed bits and its operands. -/
def Statement (i : Instr) : Prop := ∀ f ∈ fixedBits i ++ operandBits i, slice (encode i) f.1 f.2.1 = f.2.2

/-! The three shapes of a word, once each. -/

theorem a_bits {op : Nat} {nnn : Addr} (ho : op < 16) :
    slice (encodeA op nnn) 15 12 = op ∧ slice (encodeA op nnn) 11 0 = nnn.toNat := by
  have := nnn.isLt
  exact ⟨slice_15_12_encodeA ho, by rw [slice_11_0, encodeA_toNat ho]; omega⟩

theorem xk_bits {op : Nat} {x : Reg} {nn : Byte} (ho : op < 16) :
    slice (encodeXK op x nn) 15 12 = op ∧ slice (encodeXK op x nn) 11 8 = x.val ∧
      slice (encodeXK op x nn) 7 0 = nn.toNat := by
  have := x.isLt; have := nn.isLt
  exact ⟨slice_15_12_encodeXK ho, by rw [slice_11_8, encodeXK_toNat ho]; omega, slice_7_0_encodeXK ho⟩

theorem xyn_bits {op : Nat} {x y : Reg} {n : Nat} (ho : op < 16) (hn : n < 16) :
    slice (encodeXYN op x y n) 15 12 = op ∧ slice (encodeXYN op x y n) 11 8 = x.val ∧
      slice (encodeXYN op x y n) 7 4 = y.val ∧ slice (encodeXYN op x y n) 3 0 = n := by
  have := x.isLt; have := y.isLt
  exact ⟨slice_15_12_encodeXYN ho hn, by rw [slice_11_8, encodeXYN_toNat ho hn]; omega,
    by rw [slice_7_4, encodeXYN_toNat ho hn]; omega, slice_3_0_encodeXYN ho hn⟩

theorem cls : Statement (.cls) := by
  intro f hf; revert f hf; decide

theorem ret : Statement (.ret) := by
  intro f hf; revert f hf; decide

theorem sys (nnn : Addr) : Statement (.sys nnn) := by
  have h := a_bits (op := 0) (nnn := nnn) (by decide)
  simpa [Statement, fixedBits, operandBits, encode] using h

theorem jp (nnn : Addr) : Statement (.jp nnn) := by
  have h := a_bits (op := 1) (nnn := nnn) (by decide)
  simpa [Statement, fixedBits, operandBits, encode] using h

theorem call (nnn : Addr) : Statement (.call nnn) := by
  have h := a_bits (op := 2) (nnn := nnn) (by decide)
  simpa [Statement, fixedBits, operandBits, encode] using h

theorem seImm (x : Reg) (nn : Byte) : Statement (.seImm x nn) := by
  have h := xk_bits (op := 3) (x := x) (nn := nn) (by decide)
  simpa [Statement, fixedBits, operandBits, encode] using h

theorem sneImm (x : Reg) (nn : Byte) : Statement (.sneImm x nn) := by
  have h := xk_bits (op := 4) (x := x) (nn := nn) (by decide)
  simpa [Statement, fixedBits, operandBits, encode] using h

theorem seReg (x : Reg) (y : Reg) : Statement (.seReg x y) := by
  have h := xyn_bits (op := 5) (x := x) (y := y) (n := 0) (by decide) (by decide)
  simp_all [Statement, fixedBits, operandBits, encode]

theorem sneReg (x : Reg) (y : Reg) : Statement (.sneReg x y) := by
  have h := xyn_bits (op := 9) (x := x) (y := y) (n := 0) (by decide) (by decide)
  simp_all [Statement, fixedBits, operandBits, encode]

theorem ldImm (x : Reg) (nn : Byte) : Statement (.ldImm x nn) := by
  have h := xk_bits (op := 6) (x := x) (nn := nn) (by decide)
  simpa [Statement, fixedBits, operandBits, encode] using h

theorem addImm (x : Reg) (nn : Byte) : Statement (.addImm x nn) := by
  have h := xk_bits (op := 7) (x := x) (nn := nn) (by decide)
  simpa [Statement, fixedBits, operandBits, encode] using h

theorem ldReg (x : Reg) (y : Reg) : Statement (.ldReg x y) := by
  have h := xyn_bits (op := 8) (x := x) (y := y) (n := 0) (by decide) (by decide)
  simp_all [Statement, fixedBits, operandBits, encode]

theorem orReg (x : Reg) (y : Reg) : Statement (.orReg x y) := by
  have h := xyn_bits (op := 8) (x := x) (y := y) (n := 1) (by decide) (by decide)
  simp_all [Statement, fixedBits, operandBits, encode]

theorem andReg (x : Reg) (y : Reg) : Statement (.andReg x y) := by
  have h := xyn_bits (op := 8) (x := x) (y := y) (n := 2) (by decide) (by decide)
  simp_all [Statement, fixedBits, operandBits, encode]

theorem xorReg (x : Reg) (y : Reg) : Statement (.xorReg x y) := by
  have h := xyn_bits (op := 8) (x := x) (y := y) (n := 3) (by decide) (by decide)
  simp_all [Statement, fixedBits, operandBits, encode]

theorem addReg (x : Reg) (y : Reg) : Statement (.addReg x y) := by
  have h := xyn_bits (op := 8) (x := x) (y := y) (n := 4) (by decide) (by decide)
  simp_all [Statement, fixedBits, operandBits, encode]

theorem subReg (x : Reg) (y : Reg) : Statement (.subReg x y) := by
  have h := xyn_bits (op := 8) (x := x) (y := y) (n := 5) (by decide) (by decide)
  simp_all [Statement, fixedBits, operandBits, encode]

theorem shrReg (x : Reg) (y : Reg) : Statement (.shrReg x y) := by
  have h := xyn_bits (op := 8) (x := x) (y := y) (n := 6) (by decide) (by decide)
  simp_all [Statement, fixedBits, operandBits, encode]

theorem subnReg (x : Reg) (y : Reg) : Statement (.subnReg x y) := by
  have h := xyn_bits (op := 8) (x := x) (y := y) (n := 7) (by decide) (by decide)
  simp_all [Statement, fixedBits, operandBits, encode]

theorem shlReg (x : Reg) (y : Reg) : Statement (.shlReg x y) := by
  have h := xyn_bits (op := 8) (x := x) (y := y) (n := 14) (by decide) (by decide)
  simp_all [Statement, fixedBits, operandBits, encode]

theorem ldI (nnn : Addr) : Statement (.ldI nnn) := by
  have h := a_bits (op := 10) (nnn := nnn) (by decide)
  simpa [Statement, fixedBits, operandBits, encode] using h

theorem jpV0 (nnn : Addr) : Statement (.jpV0 nnn) := by
  have h := a_bits (op := 11) (nnn := nnn) (by decide)
  simpa [Statement, fixedBits, operandBits, encode] using h

theorem rnd (x : Reg) (nn : Byte) : Statement (.rnd x nn) := by
  have h := xk_bits (op := 12) (x := x) (nn := nn) (by decide)
  simpa [Statement, fixedBits, operandBits, encode] using h

theorem drw (x : Reg) (y : Reg) (n : RowCount) : Statement (.drw x y n) := by
  have h := xyn_bits (op := 13) (x := x) (y := y) n.isLt (n := n.val) (ho := by decide)
  simpa [Statement, fixedBits, operandBits, encode] using h

theorem skp (x : Reg) : Statement (.skp x) := by
  have h := xk_bits (op := 14) (x := x) (nn := 158#8) (by decide)
  simp_all [Statement, fixedBits, operandBits, encode]

theorem sknp (x : Reg) : Statement (.sknp x) := by
  have h := xk_bits (op := 14) (x := x) (nn := 161#8) (by decide)
  simp_all [Statement, fixedBits, operandBits, encode]

theorem ldVxDt (x : Reg) : Statement (.ldVxDt x) := by
  have h := xk_bits (op := 15) (x := x) (nn := 7#8) (by decide)
  simp_all [Statement, fixedBits, operandBits, encode]

theorem ldVxK (x : Reg) : Statement (.ldVxK x) := by
  have h := xk_bits (op := 15) (x := x) (nn := 10#8) (by decide)
  simp_all [Statement, fixedBits, operandBits, encode]

theorem ldDtVx (x : Reg) : Statement (.ldDtVx x) := by
  have h := xk_bits (op := 15) (x := x) (nn := 21#8) (by decide)
  simp_all [Statement, fixedBits, operandBits, encode]

theorem ldStVx (x : Reg) : Statement (.ldStVx x) := by
  have h := xk_bits (op := 15) (x := x) (nn := 24#8) (by decide)
  simp_all [Statement, fixedBits, operandBits, encode]

theorem addI (x : Reg) : Statement (.addI x) := by
  have h := xk_bits (op := 15) (x := x) (nn := 30#8) (by decide)
  simp_all [Statement, fixedBits, operandBits, encode]

theorem ldF (x : Reg) : Statement (.ldF x) := by
  have h := xk_bits (op := 15) (x := x) (nn := 41#8) (by decide)
  simp_all [Statement, fixedBits, operandBits, encode]

theorem ldB (x : Reg) : Statement (.ldB x) := by
  have h := xk_bits (op := 15) (x := x) (nn := 51#8) (by decide)
  simp_all [Statement, fixedBits, operandBits, encode]

theorem ldMemVx (x : Reg) : Statement (.ldMemVx x) := by
  have h := xk_bits (op := 15) (x := x) (nn := 85#8) (by decide)
  simp_all [Statement, fixedBits, operandBits, encode]

theorem ldVxMem (x : Reg) : Statement (.ldVxMem x) := by
  have h := xk_bits (op := 15) (x := x) (nn := 101#8) (by decide)
  simp_all [Statement, fixedBits, operandBits, encode]

end Sys2Proof.Laws.Encoding
end

