-- ==== Sys2Proof/Tests/Slice0.lean ====
section
/-! SUPPORT. The model's own tests. Expected results are those of spec/95_test_vectors.md (named in each comment) or are
worked out by hand from the rule named; encodings are written out bit by bit from the rows of R75. Then, for every
statement with hypotheses, concrete states and operands that meet them. -/

namespace Sys2Proof.Tests

open Sys2Proof.Machine Sys2Proof.Safety

/-! ### Helpers -/

/-- What a field is in the next state, or nothing where there is none. -/
def got {α : Type} (f : State → α) : Out → Option α
  | .next t => some (f t)
  | .fault _ => none
  | .refused _ => none

theorem got_some {α : Type} {f : State → α} {o : Out} {a : α} (h : got f o = some a) : ∃ t, o = .next t ∧ f t = a := by
  cases o with
  | next t => exact ⟨t, rfl, Option.some.inj h⟩
  | fault _ => cases h
  | refused _ => cases h

/-- A register file from its first values, the rest 0. -/
def regs (l : List Byte) : Vector Byte 16 := Vector.ofFn fun k => l.getD k.val 0

/-- Reset with one quiet iteration scheduled. -/
def base : State := { State.reset with inputs := [quietInput] }

/-- `base` with the other QUIRKS setting. -/
def quirky : State := withQuirks true base

/-- `base` with these registers. -/
def withV (l : List Byte) : State := { base with v := regs l }

/-- `base` with one register set. -/
def withReg (x : Reg) (b : Byte) : State := base.setReg x b

/-- `base` with one iteration of the given inputs. -/
def withInput (inp : IterInput) : State := { base with inputs := [inp] }

/-- `base` with a word at an address. -/
def withWord (a : Nat) (hi lo : Byte) : State := (base.setByte a hi).setByte (a + 1) lo

/-- The lit cells of a framebuffer, row by row. -/
def lit (fb : Framebuffer) : List (Nat × Nat) :=
  (List.finRange 32).flatMap fun r => ((List.finRange 64).filter fun c => cell fb r c).map fun c => (r.val, c.val)

/-- The fault kind and info a state is halted with. -/
def haltedWith (s : State) : Option (FaultKind × Option Nat) :=
  match s.status with
  | .running => none
  | .halted r => some (r.kind, r.info)

/-! ### Well-formedness: the two ill-formed terms (R74) -/

theorem test_wf_sys_0E0_refused : (Instr.sys 0x0E0).wellFormed = false := by decide
theorem test_wf_sys_0EE_refused : (Instr.sys 0x0EE).wellFormed = false := by decide
theorem test_wf_sys_0E1_accepted : (Instr.sys 0x0E1).wellFormed = true := by decide

/-! ### Decoding, every row of R75 -/

/-- 40_control_flow.md: 00EE, 0nnn, 1nnn, 2nnn, 3xnn, 4xnn, 5xy0, 9xy0, Bnnn. -/
theorem test_decode_control_flow :
    decode 0b0000000011101110#16 = .ok .ret ∧ decode 0b0000000100100011#16 = .ok (.sys 0x123) ∧
    decode 0b0001101010111100#16 = .ok (.jp 0xABC) ∧ decode 0b0010001000010000#16 = .ok (.call 0x210) ∧
    decode 0b0011001100000111#16 = .ok (.seImm 3 0x07) ∧ decode 0b0100001100000111#16 = .ok (.sneImm 3 0x07) ∧
    decode 0b0101000100100000#16 = .ok (.seReg 1 2) ∧ decode 0b1001000100100000#16 = .ok (.sneReg 1 2) ∧
    decode 0b1011001100000000#16 = .ok (.jpV0 0x300) := by decide

/-- 41_alu.md: 6xnn, 7xnn, 8xy0 to 8xy7, 8xyE, Cxnn. -/
theorem test_decode_alu :
    decode 0b0110101001111011#16 = .ok (.ldImm 10 0x7B) ∧ decode 0b0111000000000011#16 = .ok (.addImm 0 0x03) ∧
    decode 0b1000000100100000#16 = .ok (.ldReg 1 2) ∧ decode 0b1000000100100001#16 = .ok (.orReg 1 2) ∧
    decode 0b1000000100100010#16 = .ok (.andReg 1 2) ∧ decode 0b1000000100100011#16 = .ok (.xorReg 1 2) ∧
    decode 0b1000000100100100#16 = .ok (.addReg 1 2) ∧ decode 0b1000000100100101#16 = .ok (.subReg 1 2) ∧
    decode 0b1000000100100110#16 = .ok (.shrReg 1 2) ∧ decode 0b1000000100100111#16 = .ok (.subnReg 1 2) ∧
    decode 0b1000000100101110#16 = .ok (.shlReg 1 2) ∧ decode 0b1100001100001111#16 = .ok (.rnd 3 0x0F) := by decide

/-- 42_index_memory.md: Annn, Fx1E, Fx29, Fx33, Fx55, Fx65. -/
theorem test_decode_index_memory :
    decode 0b1010001100000000#16 = .ok (.ldI 0x300) ∧ decode 0b1111001000011110#16 = .ok (.addI 2) ∧
    decode 0b1111001000101001#16 = .ok (.ldF 2) ∧ decode 0b1111101000110011#16 = .ok (.ldB 10) ∧
    decode 0b1111000101010101#16 = .ok (.ldMemVx 1) ∧ decode 0b1111001001100101#16 = .ok (.ldVxMem 2) := by decide

/-- 43_display.md and 44_timers_keys.md: 00E0, Dxyn, Ex9E, ExA1, Fx07, Fx0A, Fx15, Fx18. -/
theorem test_decode_display_keys_timers :
    decode 0b0000000011100000#16 = .ok .cls ∧ decode 0b1101000000010101#16 = .ok (.drw 0 1 5) ∧
    decode 0b1110010110011110#16 = .ok (.skp 5) ∧ decode 0b1110010110100001#16 = .ok (.sknp 5) ∧
    decode 0b1111001100000111#16 = .ok (.ldVxDt 3) ∧ decode 0b1111001000001010#16 = .ok (.ldVxK 2) ∧
    decode 0b1111001100010101#16 = .ok (.ldDtVx 3) ∧ decode 0b1111010000011000#16 = .ok (.ldStVx 4) := by decide

/-- The unrecognised words of 95 2.1. -/
theorem test_decode_unrecognised :
    [0x5121#16, 0x8008#16, 0x800D#16, 0x800F#16, 0x9AB1#16, 0xE09F#16, 0xF00B#16, 0xF066#16, 0xFFFF#16].all
      (fun w => decide (decode w = .error (.unrecognised w))) = true := by decide

/-- The first byte is the high one (R53); one byte is no instruction (R65). -/
theorem test_decode_bytes :
    decodeBytes [0x12, 0x34, 0x56] = .ok (.jp 0x234, [0x56]) ∧ decodeBytes [0x12] = .error .truncated := by decide

theorem test_decodeTableWord :
    decodeTableWord 16 0x1234 = some (.jp 0x234) ∧ decodeTableWord 16 0x5121 = none := by decide

/-- The examples of R83. -/
theorem test_encode : encode (.addReg 1 2) = 0x8124#16 ∧ encode (.drw 0 1 5) = 0xD015#16 := by decide

/-! ### Control flow (95 2.2) -/

/-- CF1. -/
theorem test_ret_empty : got haltedWith (exec .ret base) = some (some (.emptyCallStack, none)) := by decide
/-- CF2. -/
theorem test_ret : got (fun t => (t.pc, t.stack)) (exec .ret { base with pc := 0x214, stack := [0x204, 0x206] }) =
    some (0x206, [0x204]) := by decide
/-- CF3. -/
theorem test_sys : got State.pc (exec (.sys 0x123) { base with pc := 0x300 }) = some 0x302 := by decide
/-- CF4. -/
theorem test_jp : got State.pc (exec (.jp 0xABC) base) = some 0xABC := by decide
/-- CF7. -/
theorem test_call : got (fun t => (t.pc, t.stack)) (exec (.call 0x210) { base with pc := 0x204 }) =
    some (0x210, [0x206]) := by decide
/-- CF9, CF10. -/
theorem test_seImm : got State.pc (exec (.seImm 3 0x07) (withReg 3 0x07)) = some 0x204 ∧
    got State.pc (exec (.seImm 3 0x07) (withReg 3 0x08)) = some 0x202 := by decide
/-- CF11, CF12. -/
theorem test_sneImm : got State.pc (exec (.sneImm 3 0x07) (withReg 3 0x08)) = some 0x204 ∧
    got State.pc (exec (.sneImm 3 0x07) (withReg 3 0x07)) = some 0x202 := by decide
/-- CF13, and R91 with different values. -/
theorem test_seReg : got State.pc (exec (.seReg 1 2) (withV [0, 0x40, 0x40])) = some 0x204 ∧
    got State.pc (exec (.seReg 1 2) (withV [0x41, 0x40, 0x41])) = some 0x202 := by decide
/-- CF16, CF17. -/
theorem test_sneReg : got State.pc (exec (.sneReg 1 2) (withV [0, 0x40, 0x41])) = some 0x204 ∧
    got State.pc (exec (.sneReg 1 1) (withV [0, 0x40, 0x41])) = some 0x202 := by decide
/-- CF18, with another value in V3: the offset is V0. -/
theorem test_jpV0 : got State.pc (exec (.jpV0 0x300) (withV [0x10, 0, 0, 0x20])) = some 0x310 := by decide
/-- CF20: no reduction to 12 bits. -/
theorem test_jpV0_unreduced : got State.pc (exec (.jpV0 0xFFF) (withV [0xFF])) = some 0x10FE := by decide

/-! ### Arithmetic and logic (95 2.3) -/

/-- A1. -/
theorem test_ldImm : got (fun t => t.reg 10) (exec (.ldImm 10 0x7B) base) = some 0x7B := by decide
/-- A2: VF keeps 0xAA. -/
theorem test_addImm_wraps :
    got (fun t => (t.reg 0, t.reg 15)) (exec (.addImm 0 0x03) ((withReg 0 0xFE).setReg 15 0xAA)) =
    some (0x01, 0xAA) := by decide
/-- A4. -/
theorem test_ldReg : got (fun t => (t.reg 1, t.reg 2)) (exec (.ldReg 1 2) (withV [0, 0, 0x33])) =
    some (0x33, 0x33) := by decide
/-- A5, with VF 0x99 kept. -/
theorem test_orReg :
    got (fun t => (t.reg 1, t.reg 15)) (exec (.orReg 1 2) ((withV [0, 0x0F, 0xF0]).setReg 15 0x99)) =
    some (0xFF, 0x99) := by decide
/-- A6. -/
theorem test_andReg : got (fun t => t.reg 1) (exec (.andReg 1 2) (withV [0, 0x3C, 0x0F])) = some 0x0C := by decide
/-- A7. -/
theorem test_xorReg : got (fun t => t.reg 1) (exec (.xorReg 1 2) (withV [0, 0x3C, 0x0F])) = some 0x33 := by decide
/-- A10, A11. -/
theorem test_addReg : got (fun t => (t.reg 1, t.reg 15)) (exec (.addReg 1 2) (withV [0, 0xFF, 0x01])) = some (0, 1) ∧
    got (fun t => (t.reg 1, t.reg 15)) (exec (.addReg 1 2) (withV [0, 0x10, 0x20])) = some (0x30, 0) := by decide
/-- A13: VF ends as the carry. -/
theorem test_addReg_vf : got (fun t => t.reg 15) (exec (.addReg 15 1) ((withReg 15 0xFF).setReg 1 1)) = some 1 := by
  decide
/-- A15, A17. -/
theorem test_subReg : got (fun t => (t.reg 1, t.reg 15)) (exec (.subReg 1 2) (withV [0, 5, 7])) = some (0xFE, 0) ∧
    got (fun t => (t.reg 1, t.reg 15)) (exec (.subReg 1 2) (withV [0, 5, 5])) = some (0, 1) := by decide
/-- A19: VF ends as the flag. -/
theorem test_subReg_vf : got (fun t => t.reg 15) (exec (.subReg 15 1) ((withReg 15 5).setReg 1 7)) = some 0 := by decide
/-- A24, A25. -/
theorem test_shrReg :
    got (fun t => (t.reg 1, t.reg 15)) (exec (.shrReg 1 2) (withV [0, 0xAA, 0x05])) = some (0x02, 1) ∧
    got (fun t => (t.reg 1, t.reg 15)) (exec (.shrReg 1 2) (withQuirks true (withV [0, 0xAA, 0x05]))) =
      some (0x55, 0) := by decide
/-- A27: VF ends as the shifted value. -/
theorem test_shrReg_vf : got (fun t => t.reg 15) (exec (.shrReg 15 2) (withV [0, 0, 0x03])) = some 1 := by decide
/-- A21, A23. -/
theorem test_subnReg :
    got (fun t => (t.reg 1, t.reg 15)) (exec (.subnReg 1 2) (withV [0, 7, 5])) = some (0xFE, 0) ∧
    got (fun t => (t.reg 1, t.reg 15)) (exec (.subnReg 1 2) (withQuirks true (withV [0, 5, 7]))) =
      some (0x02, 1) := by decide
/-- A30, A31. -/
theorem test_shlReg :
    got (fun t => (t.reg 1, t.reg 15)) (exec (.shlReg 1 2) (withV [0, 0x01, 0x81])) = some (0x02, 1) ∧
    got (fun t => (t.reg 1, t.reg 15)) (exec (.shlReg 1 2) (withQuirks true (withV [0, 0x01, 0x81]))) =
      some (0x02, 0) := by decide
/-- A33: VF ends as the shifted value. -/
theorem test_shlReg_vf : got (fun t => t.reg 15) (exec (.shlReg 15 2) (withV [0, 0, 0x81])) = some 2 := by decide
/-- A34. -/
theorem test_rnd :
    got (fun t => t.reg 3) (exec (.rnd 3 0x0F) (withInput { quietInput with rand := 0xB7 })) = some 0x07 := by decide

/-! ### The address register and memory (95 2.4) -/

/-- M1. -/
theorem test_ldI : got State.i (exec (.ldI 0x300) base) = some 0x300 := by decide
/-- M2, with VF kept. -/
theorem test_addI :
    got (fun t => (t.i, t.reg 15)) (exec (.addI 2) { (withReg 2 0x05).setReg 15 0x77 with i := 0x0FFE }) =
    some (0x1003, 0x77) := by decide
/-- M3, M4. -/
theorem test_addI_edge :
    got (fun t => (t.i, haltedWith t)) (exec (.addI 0) { withReg 0 0x0F with i := 0xFFF0 }) = some (0xFFFF, none) ∧
    got (fun t => (t.i, haltedWith t)) (exec (.addI 0) { withReg 0 0x10 with i := 0xFFF0 }) =
      some (0xFFF0, some (.addressOverflow, some 0x10000)) := by decide
/-- M5, M6. -/
theorem test_ldF : got State.i (exec (.ldF 2) (withReg 2 0x0A)) = some 0x032 ∧
    got State.i (exec (.ldF 2) (withReg 2 0xFF)) = some 0x4FB := by decide
/-- M7. -/
theorem test_ldB :
    got (fun t => ((List.range 4).map fun k => t.byteAt (0x300 + k), t.i)) (exec (.ldB 10)
      { withReg 10 0x7B with i := 0x300 }) = some ([1, 2, 3, 0], 0x300) := by decide
/-- M11. -/
theorem test_ldB_edge : got (fun t => (t.mem, haltedWith t)) (exec (.ldB 10) { withReg 10 0x7B with i := 0xFFE }) =
    some ([], some (.outOfBoundsAccess, some 0x1000)) := by decide
/-- M12, M13 and R50: the font is writable. -/
theorem test_ldMemVx : got (fun t => (t.mem, t.i)) (exec (.ldMemVx 0) (withReg 0 5)) = some ([(0, 5)], 1) ∧
    got (fun t => (t.mem, t.i)) (exec (.ldMemVx 0) (withQuirks true (withReg 0 5))) = some ([(0, 5)], 0) := by decide
/-- M15: nothing is stored. -/
theorem test_ldMemVx_edge : got (fun t => (t.mem, t.i, haltedWith t)) (exec (.ldMemVx 15) { withReg 0 5 with i := 0xFF1 }) =
    some ([], 0xFF1, some (.outOfBoundsAccess, some 0x1000)) := by decide
/-- M16 over the font's first bytes (R49), and M17's I. -/
theorem test_ldVxMem :
    got (fun t => (t.v, t.i)) (exec (.ldVxMem 1) (withV [1, 2, 3])) = some (regs [0xF0, 0x90, 3], 2) ∧
    got State.i (exec (.ldVxMem 1) quirky) = some 0 := by decide
/-- M19. -/
theorem test_ldVxMem_edge : got haltedWith (exec (.ldVxMem 0) { base with i := 0x1000 }) =
    some (some (.outOfBoundsAccess, some 0x1000)) := by decide
/-- A write of the reset value is not listed, so equal memories are equal lists (log 27). -/
theorem test_memory_canonical : ((base.setByte 0x300 7).setByte 0x300 0).mem = base.mem ∧
    ((base.setByte 9 1).setByte 3 2).mem = ((base.setByte 3 2).setByte 9 1).mem := by decide

/-! ### Display (95 2.5) -/

/-- D4: glyph 5 at column 63 wraps. -/
theorem test_drw_wraps :
    got (fun t => (lit t.fb, t.reg 15)) (exec (.drw 0 1 5) { withV [63, 0] with i := 0x19 }) = some
      ([(0, 0), (0, 1), (0, 2), (0, 63), (1, 63), (2, 0), (2, 1), (2, 2), (2, 63), (3, 2), (4, 0), (4, 1), (4, 2),
        (4, 63)], 0) := by decide +kernel
/-- D9. -/
theorem test_drw_collides :
    got (fun t => (lit t.fb, t.reg 15, t.result)) (exec (.drw 0 1 1) { withWord 0x300 0xC0 0 with
      i := 0x300, fb := setCell blankFramebuffer 0 0 true }) = some ([(0, 1)], 1, .completed true) := by decide +kernel
/-- D11. -/
theorem test_cls : got (fun t => (lit t.fb, t.reg 15, t.result)) (exec .cls { withReg 15 7 with
    fb := setCell blankFramebuffer 31 63 true }) = some ([], 7, .completed true) := by decide +kernel

/-! ### Keypad and timers (95 2.6) -/

/-- K1, K4. -/
theorem test_skp :
    got State.pc (exec (.skp 5) ((withInput { quietInput with keyPressed := some 10 }).setReg 5 0x0A)) = some 0x204 ∧
    got State.pc (exec (.skp 5) ((withInput { quietInput with keyPressed := some 10 }).setReg 5 0x1A)) = some 0x202 := by
  decide
/-- K5, K6. -/
theorem test_sknp :
    got State.pc (exec (.sknp 5) ((withInput { quietInput with keyPressed := some 10 }).setReg 5 0x0A)) = some 0x202 ∧
    got State.pc (exec (.sknp 5) ((withInput { quietInput with keyPressed := some 3 }).setReg 5 0x0A)) = some 0x204 := by
  decide
/-- K8. -/
theorem test_ldVxDt : got (fun t => t.reg 3) (exec (.ldVxDt 3) { base with dt := 0x3C, st := 0x11 }) = some 0x3C := by
  decide
/-- K9. -/
theorem test_ldDtVx : got (fun t => (t.dt, t.st)) (exec (.ldDtVx 3) (withReg 3 0x3C)) = some (0x3C, 0) := by decide
/-- K10. -/
theorem test_ldStVx : got (fun t => (t.st, t.dt, t.outputs)) (exec (.ldStVx 4) (withReg 4 2)) = some (2, 0, []) := by
  decide
/-- K13: a held key is no event. -/
theorem test_ldVxK_blocked : exec (.ldVxK 2) (withInput { quietInput with keyPressed := some 7 }) =
    .next { withInput { quietInput with keyPressed := some 7 } with result := .blocked } := by rfl
/-- K14. -/
theorem test_ldVxK :
    got (fun t => (t.reg 15, t.pc)) (exec (.ldVxK 15) (withInput { quietInput with keyEvent := some 4 })) =
    some (4, 0x202) := by decide

/-! ### The step (95 2.7) -/

/-- An iteration of 50/3 ms. -/
def oneFrame : IterInput := { quietInput with elapsedNum := 50, elapsedDen := 3 }

/-- T1: 60 ticks in one iteration. -/
theorem test_step_second :
    got (fun t => (t.dt, t.st, t.lag)) (step { withInput { quietInput with elapsedNum := 1000 } with dt := 100, st := 100 }) =
    some (40, 40, 0) := by decide +kernel
/-- T5: the tone. -/
theorem test_step_tone : got (fun t => (t.st, t.outputs)) (step { withInput oneFrame with st := 1 }) =
    some (0, [.emitTone]) := by decide +kernel
/-- T6: no tone at the tick from 2 to 1. -/
theorem test_step_no_tone : got (fun t => (t.st, t.outputs)) (step { withInput oneFrame with st := 2 }) =
    some (1, []) := by decide +kernel
/-- T10: one presentation for six ticks. -/
theorem test_step_presents :
    got (fun t => (t.redrawPending, t.outputs)) (step { withInput { quietInput with elapsedNum := 100 } with
      redrawPending := true }) = some (false, [.present blankFramebuffer]) := by decide +kernel
/-- T12: KEYWAIT_STALLS_TIMERS true. -/
theorem test_step_stalls :
    got (fun t => (t.dt, t.lag, t.pc)) (step { withWord 0x200 0xF0 0x0A with
      dt := 10, params := { defaultParams with keywaitStallsTimers := true },
      inputs := [{ quietInput with elapsedNum := 100 }] }) = some (10, 0, 0x200) := by decide +kernel
/-- T13: no tick after a fault, and the run has ended. -/
theorem test_step_fault :
    got (fun t => (t.dt, haltedWith t, t.runEnd.isSome)) (step { withWord 0x200 0x00 0xEE with
      dt := 10, inputs := [{ quietInput with elapsedNum := 100 }] }) =
    some (10, some (.emptyCallStack, none), true) := by decide +kernel
/-- CF24: M[0x1000] does not exist. -/
theorem test_step_fetch_bound : got haltedWith (step { base with pc := 0xFFF }) = some (some (.outOfBoundsFetch, none)) := by
  decide +kernel
/-- A step of an ended run stops (R36). -/
theorem test_step_after_quit : step { base with hasQuit := true } = .fault (.runEnded .quit) := by rfl
/-- A placed word is run by the next step (log 6). -/
theorem test_withFetchWord : got State.pc (step (State.reset.withFetchWord 16 0x1ABC)) = some 0xABC := by decide +kernel
/-- R201: the first bytes of P1 stand from 0x200 on. -/
theorem test_boot : (boot defaultParams [0x60, 0x05]).fetch = some 0x6005#16 ∧
    (boot defaultParams [0x60, 0x05]).mem = [(0x200, 0x60), (0x201, 0x05)] := by decide

/-! ### Witnesses: the hypotheses of each statement are met

Each theorem is named after the statement it belongs to. A clause has its own conjunct, at a boundary of its range. -/

theorem base_continues : Continues base := by unfold Continues; decide

theorem witness_DecodeEncodeRoundTrip :
    (Instr.sys 0x0E1).wellFormed = true ∧ (Instr.drw 15 15 15).wellFormed = true := by decide

theorem witness_DecodedWordIsItsEncoding : decode 0x00EE#16 = .ok .ret ∧ decode 0xFF65#16 = .ok (.ldVxMem 15) := by decide

/-- One word of each of the four ranges, and one that decodes. -/
theorem witness_UnrecognisedWordsAreThoseListed :
    (0x5121#16).toNat / 4096 = 5 ∧ (0x9AB1#16).toNat / 4096 = 9 ∧ (0x8008#16).toNat % 16 = 8 ∧
    (0xE09F#16).toNat % 256 = 0x9F ∧ (0xF066#16).toNat % 256 = 0x66 ∧ decode 0xE09E#16 = .ok (.skp 0) := by decide

theorem witness_StepRunsDecodedInstruction :
    Continues { base with pc := 0xFFE } ∧ decode (BitVec.ofNat 16 0) = .ok (.sys 0) := by unfold Continues; decide

theorem witness_PlacedInstructionRuns :
    State.runEnd { State.reset with pc := 0xFFE } = none ∧ decode 0xFF65#16 = .ok (.ldVxMem 15) := by decide

/-- The three places a cycle faults. -/
theorem witness_FaultEndsTheIteration :
    (Continues { base with pc := 0xFFF } ∧ 4095 ≤ (0xFFF#16).toNat) ∧
    (Continues { withWord 0xFFE 0x51 0x21 with pc := 0xFFE } ∧
      { withWord 0xFFE 0x51 0x21 with pc := 0xFFE }.fetch = some 0x5121#16 ∧
      decode 0x5121#16 = .error (.unrecognised 0x5121#16)) ∧
    (Continues (withWord 0x200 0x00 0xEE) ∧ (withWord 0x200 0x00 0xEE).fetch = some 0x00EE#16 ∧
      decode 0x00EE#16 = .ok .ret ∧ faultOf .ret (withWord 0x200 0x00 0xEE) = some (.emptyCallStack, none)) := by
  unfold Continues; decide

theorem witness_StepStopsOnlyAfterTheRunEnds :
    base.runEnd = none ∧ State.runEnd { base with hasQuit := true } = some .quit := by decide

theorem witness_QuitEndsTheRun : State.runEnd (withInput { quietInput with quit := true }) = none ∧
    (withInput { quietInput with quit := true }).input.quit = true := by decide

/-- Each listed fault at its boundary, and each form's last state without one. -/
theorem witness_FaultsAreExactlyThoseListed :
    faultOf .ret base = some (.emptyCallStack, none) ∧ faultOf .ret { base with stack := [0] } = none ∧
    faultOf (.drw 0 0 2) { base with i := 0xFFF } = some (.outOfBoundsAccess, some 4096) ∧
    faultOf (.drw 0 0 1) { base with i := 0xFFF } = none ∧ faultOf (.drw 0 0 0) { base with i := 0xFFFF } = none ∧
    faultOf (.ldB 0) { base with i := 0xFFE } = some (.outOfBoundsAccess, some 4096) ∧
    faultOf (.ldB 0) { base with i := 0xFFD } = none ∧
    faultOf (.ldMemVx 15) { base with i := 0xFF1 } = some (.outOfBoundsAccess, some 4096) ∧
    faultOf (.ldMemVx 15) { base with i := 0xFF0 } = none ∧
    faultOf (.ldVxMem 0) { base with i := 0x1001 } = some (.outOfBoundsAccess, some 4097) ∧
    faultOf (.ldVxMem 0) { base with i := 0xFFF } = none ∧
    faultOf (.addI 0) { withReg 0 0x10 with i := 0xFFF0 } = some (.addressOverflow, some 0x10000) ∧
    faultOf (.addI 0) { withReg 0 0x0F with i := 0xFFF0 } = none ∧ faultOf .cls base = none := by decide

theorem witness_SysOnlyAdvances : (0x0E1#12 : Addr) ≠ 0x0E0 ∧ (0x0E1#12 : Addr) ≠ 0x0EE := by decide

theorem witness_RetPopsReturnAddress :
    State.stack { base with stack := [0x204, 0x206] } = [0x204] ++ [0x206] ∧ base.stack = [] := by decide

theorem witness_CallThenReturn : ∃ t, exec (.call 0x210) base = .next t := ⟨_, rfl⟩

/-- The reserved low nibbles 1 and 15. -/
theorem witness_ComparesSkip : (1 ≤ 1 ∧ 1 ≤ 15) ∧ (1 ≤ 15 ∧ 15 ≤ 15) := by decide

/-- CLS, and Fx0A with an event. -/
theorem witness_OtherInstructionsAdvanceByTwo :
    (faultOf .cls base = none ∧ (∃ t, exec .cls base = .next t) ∧ ¬∃ x, Instr.cls = .ldVxK x) ∧
    (faultOf (.ldVxK 15) (withInput { quietInput with keyEvent := some 15 }) = none ∧
      (withInput { quietInput with keyEvent := some 15 }).input.keyEvent ≠ none ∧
      ∃ t, exec (.ldVxK 15) (withInput { quietInput with keyEvent := some 15 }) = .next t) :=
  ⟨⟨by decide, ⟨_, rfl⟩, by simp⟩, by decide, by decide, _, rfl⟩

theorem witness_AddSetsCarry : (14 : Reg) ≠ VF ∧ 256 ≤ (0xFF#8).toNat + (0x01#8).toNat ∧
    ¬256 ≤ (0xFE#8).toNat + (0x01#8).toNat := by decide

theorem witness_SubtractionsSetNoBorrow : (14 : Reg) ≠ VF ∧ (0x05#8).toNat ≤ (0x05#8).toNat ∧
    ¬(0x06#8).toNat ≤ (0x05#8).toNat := by decide

/-- Both QUIRKS settings. -/
theorem witness_ShiftsTakeTheQuirkSource : (14 : Reg) ≠ VF ∧
    (5#8 = if (withV [0, 9, 5]).params.quirks = true then (withV [0, 9, 5]).reg 1 else (withV [0, 9, 5]).reg 2) ∧
    (0#8 = if quirky.params.quirks = true then quirky.reg 1 else quirky.reg 2) ∧ quirky.params.quirks = true := by decide

theorem witness_AddToIndexOrOverflow :
    State.i { withReg 0 0x0F with i := 0xFFF0 } + 0x0F = 0xFFFF ∧ (0xFFF0#16).toNat + ((withReg 0 0x0F).reg 0).toNat ≤ 0xFFFF ∧
    0xFFFF < (0xFFF0#16).toNat + ((withReg 0 0x10).reg 0).toNat := by decide

theorem witness_DecimalDigitsAreStored : (0xFFD#16).toNat + 2 < 4096 ∧ 4096 ≤ (0xFFE#16).toNat + 2 := by decide

theorem witness_RegistersAreStored : (0xFF0#16).toNat + (15 : Reg).val < 4096 ∧ 4096 ≤ (0xFF1#16).toNat + (15 : Reg).val ∧
    base.params.quirks = false ∧ quirky.params.quirks = true := by decide

theorem witness_RegistersAreLoaded : (0xFFF#16).toNat + (0 : Reg).val < 4096 ∧ 4096 ≤ (0x1000#16).toNat + (0 : Reg).val ∧
    base.params.quirks = false ∧ quirky.params.quirks = true := by decide

theorem witness_StoreThenLoadBringsBack :
    State.i { base with i := 0xFF0 } = 0xFF0 ∧ (0xFF0#16).toNat + (15 : Reg).val < 4096 ∧
    ∃ t, exec (.ldMemVx 15) { base with i := 0xFF0 } = .next t := ⟨by decide, by decide, _, rfl⟩

/-- M20: PC 0x300, I 0x302, the stored registers V0 and V1. -/
theorem witness_StoredBytesAreFetchedNext :
    (0x302#16).toNat + (1 : Reg).val < 4096 ∧ (0 : Reg).val + 1 ≤ (1 : Reg).val ∧
    (State.pc { base with pc := 0x300, i := 0x302 } + 2).toNat = (0x302#16).toNat + (0 : Reg).val := by decide

/-- No rows anywhere, the last byte of memory, one byte past it. -/
theorem witness_DrawTogglesCoveredCells :
    (0 : RowCount).val = 0 ∧ (0xFFF#16).toNat + (1 : RowCount).val ≤ 4096 ∧
    (0 < (2 : RowCount).val ∧ 4096 < (0xFFF#16).toNat + (2 : RowCount).val) := by decide

/-- A sprite that covers cell (0, 0) and one that covers none. -/
theorem witness_DrwCovers : DrwCovers 0 1 1 base 0 0 ∧ ∀ r c, ¬DrwCovers 0 1 0 base r c :=
  ⟨⟨0, by decide, 0, by decide, by decide, by decide, by decide⟩, fun _ _ ⟨_, h, _⟩ => absurd h (Nat.not_lt_zero _)⟩

/-- Coordinates in V0 and V1, and both in VF. -/
theorem witness_DrawTwiceRestores :
    (base.i.toNat + (5 : RowCount).val ≤ 4096 ∧ ∃ t u, exec (.drw 0 1 5) base = .next t ∧ t.reg 0 = base.reg 0 ∧
      t.reg 1 = base.reg 1 ∧ exec (.drw 0 1 5) t = .next u) ∧
    ((0 : RowCount).val = 0 ∧ ∃ t u, exec (.drw 15 15 0) base = .next t ∧ t.reg 15 = base.reg 15 ∧
      exec (.drw 15 15 0) t = .next u) :=
  ⟨⟨by decide, _, _, rfl, rfl, rfl, rfl⟩, by decide, _, _, rfl, by decide, rfl⟩

/-- S4: column 64 for column 0, row 32 for row 0. -/
theorem witness_DrawWrapsCoordinates :
    (regs [64, 32])[0].toNat % 64 = (base.reg 0).toNat % 64 ∧ (regs [64, 32])[1].toNat % 32 = (base.reg 1).toNat % 32 ∧
    ∃ t u, exec (.drw 0 1 5) base = .next t ∧ exec (.drw 0 1 5) (withV [64, 32]) = .next u :=
  ⟨by decide, by decide, _, _, rfl, rfl⟩

theorem witness_KeySkipsFollowThePoll :
    (∃ k, (withInput { quietInput with keyPressed := some 0 }).input.keyPressed = some k ∧
      k.val = ((withInput { quietInput with keyPressed := some 0 }).reg 5).toNat) ∧
    (¬∃ k, base.input.keyPressed = some k ∧ k.val = (base.reg 5).toNat) ∧ 16 ≤ ((withReg 5 16).reg 5).toNat := by decide

theorem witness_KeyWaitCompletesOnEvent :
    (withInput { quietInput with keyEvent := some 15 }).input.keyEvent = some 15 ∧ base.input.keyEvent = none := by decide

theorem witness_RegistersWrittenAreThoseListed : ∃ t, exec (.ldVxMem 15) base = .next t := ⟨_, rfl⟩

/-- A state for each clause: an instruction that is not among its writers runs. -/
theorem witness_SpecialStateWritersAreThoseListed :
    writesI base.params.quirks .cls = false ∧ writesI quirky.params.quirks (.ldMemVx 0) = false ∧
    (∃ t, exec .cls base = .next t) ∧ (∃ t, exec (.ldMemVx 0) quirky = .next t) ∧ ∃ t, exec (.ldDtVx 0) base = .next t :=
  ⟨by decide, by decide, ⟨_, rfl⟩, ⟨_, rfl⟩, _, rfl⟩

theorem witness_InstructionsLeaveThePacerAlone : ∃ t, exec (.drw 0 1 5) base = .next t := ⟨_, rfl⟩

theorem witness_QuirksChangeFourInstructions : (∀ x y, Instr.cls ≠ .shrReg x y ∧ Instr.cls ≠ .shlReg x y) ∧
    (∀ x, Instr.cls ≠ .ldMemVx x ∧ Instr.cls ≠ .ldVxMem x) ∧ ∃ t, exec .cls base = .next t :=
  ⟨by simp, by simp, _, rfl⟩

theorem witness_InputsReachFourInstructions : (∀ x, Instr.ldB 3 ≠ .skp x ∧ Instr.ldB 3 ≠ .sknp x ∧ Instr.ldB 3 ≠ .ldVxK x) ∧
    (∀ x nn, Instr.ldB 3 ≠ .rnd x nn) ∧ ∃ t, exec (.ldB 3) base = .next t :=
  ⟨by simp, by simp, _, rfl⟩

theorem witness_RedrawAndBlockedResults :
    (faultOf .cls base = none ∧ ∃ t, exec .cls base.beginCycle = .next t) ∧
    faultOf (.ldVxK 0) base = none ∧ base.input.keyEvent = none ∧ ∃ t, exec (.ldVxK 0) base.beginCycle = .next t :=
  ⟨⟨by decide, _, rfl⟩, by decide, by decide, _, rfl⟩

/-- No whole frame, and exactly one. -/
theorem witness_PacerDrainsWholeFrames :
    base.status = .running ∧ base.stalls = false ∧ 0 ≤ base.lag ∧ (0 : Rat) ≤ 16 ∧ (0 : Rat) ≤ 1000 / 60 ∧
    framesIn (base.lag + 16) = 0 ∧ framesIn (base.lag + 1000 / 60) = 1 := by decide +kernel

theorem witness_TimeMayBeAccumulatedInPieces :
    0 ≤ base.lag ∧ base.lag < 1000 / 60 ∧ ∀ ms ∈ [(10 : Rat), 10, 50 / 3, 0], 0 ≤ ms := by decide +kernel

theorem witness_OneSecondIsSixtyTicks : base.lag = 0 := rfl

/-- A run of two iterations. -/
theorem witness_LagOverARun :
    base.params.keywaitStallsTimers = false ∧ 0 ≤ base.lag ∧ base.lag < 1000 / 60 ∧
    2 ≤ (State.inputs { base with inputs := [oneFrame, quietInput] }).length ∧
    ∃ t, Host.Core.run core 2 { base with inputs := [oneFrame, quietInput] } = .next t ∧ State.runEnd t = none :=
  ⟨rfl, by decide +kernel, by decide +kernel, by decide, got_some (f := State.runEnd) (by decide +kernel)⟩

/-- Both settings of KEYWAIT_STALLS_TIMERS. -/
theorem witness_BlockedIterationAndTheTimers :
    Continues (withWord 0x200 0xF0 0x0A) ∧ (withWord 0x200 0xF0 0x0A).fetch = some 0xF00A#16 ∧
    decode 0xF00A#16 = .ok (.ldVxK 0) ∧ (withWord 0x200 0xF0 0x0A).input.keyEvent = none ∧
    (withWord 0x200 0xF0 0x0A).params.keywaitStallsTimers = false ∧
    State.fetch { withWord 0x200 0xF0 0x0A with params := { defaultParams with keywaitStallsTimers := true } } =
      some 0xF00A#16 := by unfold Continues; decide

theorem witness_LaunchParametersAreFixed : ∃ t, step base = .next t := ⟨_, rfl⟩

/-- The longest program that loads and the shortest that does not. -/
theorem witness_LoaderCopiesOrFails :
    (List.replicate 3584 (0 : Byte)).length ≤ 3584 ∧ 3584 < (List.replicate 3585 (0 : Byte)).length := by
  simp only [List.length_replicate]; decide

theorem witness_StartingMemoryMap :
    ([0x60, 0x05] : List Byte).length ≤ 3584 ∧ (79 < 80) ∧ (80 ≤ 80 ∧ 80 < 0x200) ∧ 0x200 + 2 ≤ 0x202 := by decide

theorem witness_StepKeepsInvariant : Inv base ∧ ∃ t, step base = .next t := by
  refine ⟨⟨by decide, by decide +kernel, by decide +kernel, by decide, ?_, ?_, ?_⟩, _, rfl⟩
  · intro a ha; cases ha
  · intro r hr; cases hr
  · intro h; cases h

end Sys2Proof.Tests
end

section
/-! O40: the instructions leave the pacer's state alone. `PacerKept` names the frame once, for every operation that keeps
it; the instructions with more than one outcome are taken apart by the lemmas of Laws/Exec. -/

namespace Sys2Proof.Machine

/-- From `s` to `t` nothing changes of what belongs to the pacer and the environment: the pending-redraw flag, the lag,
the launch parameters and the outputs (R33, R37, R38, R192), and the model's own schedule of inputs, iteration count and
quit mark (log 1, 8). -/
structure PacerKept (s t : State) : Prop where
  redrawPending : t.redrawPending = s.redrawPending
  lag : t.lag = s.lag
  params : t.params = s.params
  outputs : t.outputs = s.outputs
  inputs : t.inputs = s.inputs
  iterations : t.iterations = s.iterations
  hasQuit : t.hasQuit = s.hasQuit

variable {s t u : State} {i : Instr}

/-- The frame, read off the one next state an outcome has. -/
theorem PacerKept.of_outcome {o : Out} (ho : o = .next t) (hu : o = .next u) (hk : PacerKept s u) : PacerKept s t := by
  cases ho.symm.trans hu
  exact hk

/-- A fault of an instruction touches the status alone (R165). -/
theorem raiseIn_pacerKept (k : FaultKind) (info : Option Nat) : PacerKept s (s.raiseIn i k info) := by
  constructor <;> simp

/-- Every instruction, completing, blocked or faulting, leaves the pacer's state alone. -/
theorem exec_pacerKept (h : exec i s = .next t) : PacerKept s t := by
  cases i with
  | ret =>
    obtain ⟨-, e⟩ | ⟨l, a, -, e⟩ := execRet_cases s
    · exact .of_outcome h e (raiseIn_pacerKept _ _)
    · exact .of_outcome h e (by constructor <;> rfl)
  | drw x y n =>
    obtain ⟨-, e⟩ | ⟨-, q, -, e⟩ := execDrw_cases x y n s
    · exact .of_outcome h e (raiseIn_pacerKept _ _)
    · exact .of_outcome h e (by constructor <;> simp)
  | ldVxK x =>
    obtain ⟨k, -, e⟩ | ⟨-, e⟩ := execLdVxK_cases x s <;> exact .of_outcome h e (by constructor <;> simp)
  | addI x =>
    obtain ⟨-, e⟩ | ⟨-, e⟩ := execAddI_cases x s
    · exact .of_outcome h e (raiseIn_pacerKept _ _)
    · exact .of_outcome h e (by constructor <;> simp)
  | ldB x =>
    obtain ⟨-, e⟩ | ⟨-, e⟩ := execLdB_cases x s
    · exact .of_outcome h e (raiseIn_pacerKept _ _)
    · exact .of_outcome h e (by constructor <;> simp)
  | ldMemVx x =>
    obtain ⟨-, e⟩ | ⟨-, e⟩ := execLdMemVx_cases x s
    · exact .of_outcome h e (raiseIn_pacerKept _ _)
    · exact .of_outcome h e (by constructor <;> simp)
  | ldVxMem x =>
    obtain ⟨-, e⟩ | ⟨-, e⟩ := execLdVxMem_cases x s
    · exact .of_outcome h e (raiseIn_pacerKept _ _)
    · exact .of_outcome h e (by constructor <;> simp)
  -- The others have one outcome, built from register, index, timer, stack, PC and framebuffer writes.
  | _ =>
    cases h
    constructor <;> rfl

/-- Settles O40: each instruction's outcomes are built from operations that keep the pacer's state. -/
theorem instructionsLeaveThePacerAlone : Obligations.InstructionsLeaveThePacerAlone := by
  intro i s t h
  obtain ⟨hredraw, hlag, hparams, houtputs, hinputs, hiterations, hquit⟩ := exec_pacerKept h
  exact ⟨hredraw, hlag, hparams, houtputs, hinputs, hiterations, hquit⟩

end Sys2Proof.Machine
end

section
/-! O38, O39: what an instruction may write. `Writes` names the frame once, for the completing, blocked and faulting
outcomes alike; `exec_writes` is the one case split over the instructions, and the statements below and the invariant's
(O54) read their parts off it. -/

namespace Sys2Proof.Machine

open Sys2Proof.Safety

variable {s t : State} {i : Instr}

/-- From `s` to `t` instruction `i` has written no more than the spec lets it. Either its own check failed and `t` is `s`
with the record (R165, R167), or the status is kept. The registers, I, the stack, the timers, the framebuffer and memory
change only as `destRegs`, `writesI` and R29 to R46 list them, memory inside its cells. PC stays, advances, skips, or is
a return address or a target of 12 bits plus V0 (R72, R85, R87, R88, R93).
A field's default proof serves every instruction that leaves that field alone, so a case below names what it writes. -/
structure Writes (i : Instr) (s t : State) : Prop where
  outcome : (∃ k info, faultOf i s = some (k, info) ∧ t = s.raiseIn i k info) ∨
    (faultOf i s = none ∧ t.status = s.status) := by exact .inr ⟨rfl, rfl⟩
  regs : RegsKeptBut (destRegs i) s t := by intro _ _; simp
  index : writesI s.params.quirks i = false → t.i = s.i := by simp
  stack : i ≠ .ret → (∀ a, i ≠ .call a) → t.stack = s.stack := by simp
  returns : ∀ a ∈ t.stack, a ∈ s.stack ∨ a = s.pc + 2 := by simp +contextual
  dt : (∀ x, i ≠ .ldDtVx x) → t.dt = s.dt := by simp
  st : (∀ x, i ≠ .ldStVx x) → t.st = s.st := by simp
  fb : i ≠ .cls → (∀ x y n, i ≠ .drw x y n) → t.fb = s.fb := by simp
  mem : (∀ x, i ≠ .ldB x) → (∀ x, i ≠ .ldMemVx x) → t.mem = s.mem := by simp
  mem_wf : Memory.wf s.params s.mem → Memory.wf s.params t.mem := by simp
  pc : t.pc = s.pc ∨ t.pc = s.pc + 2 ∨ t.pc = s.pc + 4 ∨ t.pc ∈ s.stack ∨ t.pc.toNat ≤ 0x10FE := by simp

/-- A fault of an instruction writes the status alone (R165). -/
theorem writes_of_fault {k : FaultKind} {info : Option Nat} (h : faultOf i s = some (k, info)) :
    Writes i s (s.raiseIn i k info) :=
  { outcome := .inl ⟨k, info, h, rfl⟩ }

/-- A write of the one destination register, then the default advance. -/
theorem writes_setReg {x : Reg} {b : Byte} (hf : faultOf i s = none) (hd : destRegs i = [x]) :
    Writes i s (s.setReg x b).advance :=
  { outcome := .inr ⟨hf, rfl⟩
    regs := by
      intro r hr
      rw [hd, List.mem_singleton] at hr
      rw [State.advance_reg, State.reg_setReg_other hr] }

/-- A result and a flag in VF, then the default advance (R113). -/
theorem writes_resultThenFlag {x : Reg} {a f : Byte} (hf : faultOf i s = none) (hd : destRegs i = [x, VF]) :
    Writes i s (s.resultThenFlag x a f).advance :=
  { outcome := .inr ⟨hf, rfl⟩
    regs := by
      intro r hr
      simp only [hd, List.mem_cons, List.not_mem_nil, or_false, not_or] at hr
      rw [State.advance_reg, State.reg_resultThenFlag, if_neg hr.2, if_neg hr.1] }

/-- A flag in VF and a result, then the default advance (R113). -/
theorem writes_flagThenResult {x : Reg} {a f : Byte} (hf : faultOf i s = none) (hd : destRegs i = [x, VF]) :
    Writes i s (s.flagThenResult x a f).advance :=
  { outcome := .inr ⟨hf, rfl⟩
    regs := by
      intro r hr
      simp only [hd, List.mem_cons, List.not_mem_nil, or_false, not_or] at hr
      rw [State.advance_reg, State.reg_flagThenResult, if_neg hr.1, if_neg hr.2] }

/-- A skip, taken or not, writes PC alone (R94). -/
theorem writes_skipIf {c : Bool} (hf : faultOf i s = none) : Writes i s (s.skipIf c) :=
  { outcome := .inr ⟨hf, rfl⟩
    pc := by cases c <;> simp }

/-- A target of Bnnn is at most 0xFFF + 0xFF (R28, R93). -/
theorem offsetTarget_le (s : State) (nnn : Addr) : (offsetTarget s nnn).toNat ≤ 0x10FE := by
  have := nnn.isLt
  have := (s.reg 0).isLt
  simp only [offsetTarget, BitVec.toNat_ofNat]
  omega

/-- A 12-bit target is inside the range of R28 (R87, R88). -/
theorem addrWord_le (nnn : Addr) : (addrWord nnn).toNat ≤ 0x10FE := by
  have := nnn.isLt
  simp only [addrWord, BitVec.toNat_setWidth]
  omega

/-- Under QUIRKS a block transfer leaves I where it is (R124, R125). -/
theorem iAfterBlock_of_quirks {x : Reg} (h : s.params.quirks = true) : s.iAfterBlock x = s.i := by
  simp [State.iAfterBlock, h]

/-- Every instruction answers a next state, and writes no more than the spec lists (R22, R25, R29, R31, R32, R35, R46). -/
theorem exec_writes (i : Instr) (s : State) : ∃ t, exec i s = .next t ∧ Writes i s t := by
  cases i with
  | cls => exact ⟨_, rfl, { fb := fun h => absurd rfl h }⟩
  | ret =>
    obtain ⟨hs, e⟩ | ⟨l, a, hs, e⟩ := execRet_cases s
    · exact ⟨_, e, writes_of_fault (if_pos hs)⟩
    · have hf : faultOf .ret s = none := if_neg (by simp [hs])
      exact ⟨_, e, { outcome := .inr ⟨hf, by simp⟩
                     regs := fun _ _ => rfl
                     stack := fun h => absurd rfl h
                     returns := by simp +contextual [hs]
                     pc := by simp [hs] }⟩
  | sys nnn => exact ⟨_, rfl, {}⟩
  | jp nnn => exact ⟨_, rfl, { pc := by simp [addrWord_le] }⟩
  | jpV0 nnn => exact ⟨_, rfl, { pc := by simp [offsetTarget_le] }⟩
  | call nnn => exact ⟨_, rfl, { stack := fun _ h => absurd rfl (h nnn), pc := by simp [addrWord_le] }⟩
  | seImm | sneImm | seReg | sneReg | skp | sknp => exact ⟨_, rfl, writes_skipIf rfl⟩
  | ldImm | addImm | ldReg | orReg | andReg | xorReg | rnd | ldVxDt => exact ⟨_, rfl, writes_setReg rfl rfl⟩
  | addReg | subReg | subnReg => exact ⟨_, rfl, writes_resultThenFlag rfl rfl⟩
  | shrReg | shlReg => exact ⟨_, rfl, writes_flagThenResult rfl rfl⟩
  | ldI | ldF => exact ⟨_, rfl, { index := fun h => nomatch h }⟩
  | drw x y n =>
    obtain ⟨hb, e⟩ | ⟨hb, q, -, e⟩ := execDrw_cases x y n s
    · exact ⟨_, e, writes_of_fault (if_pos (by omega))⟩
    · have hf : faultOf (.drw x y n) s = none := if_neg (by omega)
      exact ⟨_, e, { outcome := .inr ⟨hf, by simp⟩
                     regs := fun r hr => State.reg_setReg_other (by simpa [destRegs] using hr)
                     fb := fun _ h => absurd rfl (h x y n) }⟩
  | ldVxK x =>
    obtain ⟨k, -, e⟩ | ⟨-, e⟩ := execLdVxK_cases x s
    · exact ⟨_, e, writes_setReg rfl rfl⟩
    · exact ⟨_, e, {}⟩
  | ldDtVx x => exact ⟨_, rfl, { dt := fun h => absurd rfl (h x) }⟩
  | ldStVx x => exact ⟨_, rfl, { st := fun h => absurd rfl (h x) }⟩
  | addI x =>
    obtain ⟨hb, e⟩ | ⟨hb, e⟩ := execAddI_cases x s
    · exact ⟨_, e, writes_of_fault (if_pos hb)⟩
    · have hf : faultOf (.addI x) s = none := if_neg (not_lt.2 hb)
      exact ⟨_, e, { outcome := .inr ⟨hf, by simp⟩
                     index := fun h => nomatch h }⟩
  | ldB x =>
    obtain ⟨hb, e⟩ | ⟨hb, e⟩ := execLdB_cases x s
    · exact ⟨_, e, writes_of_fault (if_pos hb)⟩
    · have hf : faultOf (.ldB x) s = none := if_neg (not_le.2 hb)
      exact ⟨_, e, { outcome := .inr ⟨hf, by simp⟩
                     mem := fun h => absurd rfl (h x)
                     mem_wf := fun h => State.setBytes_wf h hb }⟩
  | ldMemVx x =>
    obtain ⟨hb, e⟩ | ⟨hb, e⟩ := execLdMemVx_cases x s
    · exact ⟨_, e, writes_of_fault (if_pos hb)⟩
    · have hf : faultOf (.ldMemVx x) s = none := if_neg (not_le.2 hb)
      exact ⟨_, e, { outcome := .inr ⟨hf, by simp⟩
                     index := fun h => iAfterBlock_of_quirks (by simpa [writesI] using h)
                     mem := fun _ h => absurd rfl (h x)
                     mem_wf := fun h => State.setBytes_wf h (by rw [State.regsUpTo_length]; exact hb) }⟩
  | ldVxMem x =>
    obtain ⟨hb, e⟩ | ⟨hb, e⟩ := execLdVxMem_cases x s
    · exact ⟨_, e, writes_of_fault (if_pos hb)⟩
    · have hf : faultOf (.ldVxMem x) s = none := if_neg (not_le.2 hb)
      exact ⟨_, e, { outcome := .inr ⟨hf, by simp⟩
                     regs := by
                       intro r hr
                       have hx : ¬r ≤ x := by simpa [destRegs] using hr
                       rw [State.advance_reg, State.setI_reg, State.reg_setRegsUpTo, if_neg hx]
                     index := fun h => iAfterBlock_of_quirks (by simpa [writesI] using h) }⟩

/-- The frame of an instruction, read off its one next state. -/
theorem writes_of_exec (h : exec i s = .next t) : Writes i s t := by
  obtain ⟨u, e, hw⟩ := exec_writes i s
  cases h.symm.trans e
  exact hw

/-- Settles O38: the registers written are those of the frame. -/
theorem registersWrittenAreThoseListed : Obligations.RegistersWrittenAreThoseListed :=
  fun _ _ _ h => (writes_of_exec h).regs

/-- Settles O39: the writers of the special state are those of the frame; a byte reads as before where neither memory nor
the launch parameters changed. -/
theorem specialStateWritersAreThoseListed : Obligations.SpecialStateWritersAreThoseListed := by
  intro i s t h
  have hw := writes_of_exec h
  exact ⟨hw.index, hw.stack, hw.dt, hw.st, hw.fb, fun hb hm =>
    have hmem := hw.mem hb hm
    ⟨hmem, State.byteAt_congr hmem (exec_pacerKept h).params⟩⟩

end Sys2Proof.Machine
end

section
/-! O8, O49: what a cycle, the pacer and a whole step leave alone, and when the step answers. -/

namespace Sys2Proof.Machine

open Sys2Proof.Safety

variable {s t u : State}

/-! ### The cycle -/

theorem PacerKept.refl (s : State) : PacerKept s s := by constructor <;> rfl

/-- A fault at the fetch or at decode touches the status alone (R165). -/
theorem raise_pacerKept (k : FaultKind) (w : Option Word) (info : Option Nat) : PacerKept s (s.raise k w info) := by
  constructor <;> rfl

/-- A cycle leaves the pacer's state alone, faulting or not. -/
theorem cycle_pacerKept (h : cycle s = .next t) : PacerKept s t := by
  obtain ⟨-, e⟩ | ⟨w, d, -, -, e⟩ | ⟨w, ins, -, -, e⟩ := cycle_cases s
  · exact .of_outcome h e (raise_pacerKept _ _ _)
  · exact .of_outcome h e (raise_pacerKept _ _ _)
  · exact exec_pacerKept (e.symm.trans h)

/-- A cycle always answers a next state: a fault is a status, not a stop (R165, log 7). -/
theorem cycle_next (s : State) : ∃ t, cycle s = .next t := by
  obtain ⟨-, e⟩ | ⟨w, d, -, -, e⟩ | ⟨w, ins, -, -, e⟩ := cycle_cases s
  · exact ⟨_, e⟩
  · exact ⟨_, e⟩
  · obtain ⟨t, ht, -⟩ := exec_writes ins s
    exact ⟨t, e.trans ht⟩

/-! ### The pacer -/

/-- From `s` to `t` only what the pacer writes changes: the lag, the timers, the pending-redraw flag and the outputs
(R178 to R182). -/
def EngineKept (s t : State) : Prop :=
  t = { s with lag := t.lag, dt := t.dt, st := t.st, redrawPending := t.redrawPending, outputs := t.outputs }

theorem EngineKept.trans (h : EngineKept s t) (k : EngineKept t u) : EngineKept s u := by
  unfold EngineKept at h k ⊢
  rw [k, h]

theorem tick_engineKept (s : State) : EngineKept s (tick s) := by
  unfold EngineKept
  rw [tick_eq]

/-- The drain is made of ticks, whatever the lag. -/
theorem drain_engineKept (k : Nat) (s : State) : EngineKept s (drain k s) := by
  induction k generalizing s with
  | zero => rfl
  | succ k ih =>
    unfold drain
    split
    · have hl : EngineKept s { s with lag := s.lag - frameMs } := rfl
      exact (hl.trans (tick_engineKept _)).trans (ih _)
    · rfl

theorem accumulate_engineKept (ms : Rat) (s : State) : EngineKept s (accumulate ms s) := by
  have hl : EngineKept s { s with lag := s.lag + ms } := rfl
  exact hl.trans (drain_engineKept _ _)

/-- The pending-redraw flag is all that `noteRedraw` writes. -/
theorem noteRedraw_eq (s : State) : noteRedraw s = { s with redrawPending := (noteRedraw s).redrawPending } := by
  unfold noteRedraw
  split <;> rfl

/-- All the pacer can do after a cycle: surface the fault, return early from a blocked cycle, or accumulate (R178, R184). -/
theorem pace_cases (ms : Rat) (s : State) :
    (∃ r, s.status = .halted r ∧ pace ms s = s.emit (.runEnd (.halted r))) ∨
      (s.status = .running ∧ s.stalls = true ∧ pace ms s = noteRedraw s) ∨
      (s.status = .running ∧ s.stalls = false ∧ pace ms s = accumulate ms (noteRedraw s)) := by
  unfold pace
  cases hs : s.status with
  | halted r => exact .inl ⟨r, rfl, rfl⟩
  | running => cases hb : s.stalls <;> simp

theorem pace_engineKept (ms : Rat) (s : State) : EngineKept s (pace ms s) := by
  have hn : EngineKept s (noteRedraw s) := by
    unfold EngineKept
    rw [noteRedraw_eq]
  obtain ⟨r, -, e⟩ | ⟨-, -, e⟩ | ⟨-, -, e⟩ := pace_cases ms s <;> rw [e]
  · rfl
  · exact hn
  · exact hn.trans (accumulate_engineKept _ _)

/-! ### The step -/

/-- The run has not ended exactly where the engine is running and no quit was taken (R36, R185, R186). -/
theorem runEnd_eq_none : s.runEnd = none ↔ s.status = .running ∧ s.hasQuit = false := by
  unfold State.runEnd
  cases s.status with
  | halted r => by_cases hk : r.kind = .programTooLarge <;> simp [hk]
  | running => simp

/-- A step that answers was made by a run that had not ended: it took the quit, or it ran a cycle and paced (R178). -/
theorem step_cases (h : step s = .next t) :
    (s.runEnd = none ∧ t = (quitRun s).endIteration) ∨
      (Continues s ∧ ∃ u, cycle s.beginCycle = .next u ∧ t = (pace (elapsedMs s.input) u).endIteration) := by
  obtain ⟨e, -, hi⟩ | ⟨hr, -, hi⟩ | ⟨hc, u, hu, hi⟩ | ⟨-, -, hi⟩ := iterate_cases s
  · cases hi.symm.trans h
  · cases hi.symm.trans h
    exact .inl ⟨hr, rfl⟩
  · cases hi.symm.trans h
    exact .inr ⟨hc, u, hu, rfl⟩
  · exact absurd h (hi t)

/-- The step answers exactly while the run has not ended: neither a cycle nor the pacer stops it. -/
theorem step_next_iff : (∃ t, step s = .next t) ↔ s.runEnd = none := by
  constructor
  · rintro ⟨t, h⟩
    obtain ⟨hr, -⟩ | ⟨⟨hr, -⟩, -⟩ := step_cases h <;> exact hr
  · intro hr
    obtain ⟨e, he, -⟩ | ⟨-, -, hi⟩ | ⟨-, u, -, hi⟩ | ⟨-, hn, -⟩ := iterate_cases s
    · rw [hr] at he
      cases he
    · exact ⟨_, hi⟩
    · exact ⟨_, hi⟩
    · obtain ⟨u, hu⟩ := cycle_next s.beginCycle
      exact absurd hu (hn u)

/-- A step keeps the launch parameters and uses up one scheduled input (R191, log 1). -/
theorem step_params_inputs (h : step s = .next t) : t.params = s.params ∧ t.inputs = s.inputs.tail := by
  obtain ⟨-, rfl⟩ | ⟨-, u, hu, rfl⟩ := step_cases h
  · exact ⟨rfl, rfl⟩
  · have hk := cycle_pacerKept hu
    have hp := pace_engineKept (elapsedMs s.input) u
    exact ⟨(congrArg State.params hp).trans hk.params,
      congrArg List.tail ((congrArg State.inputs hp).trans hk.inputs)⟩

/-- Settles O8: the step answers exactly where the run has not ended, and that is the engine running with no quit. -/
theorem stepStopsOnlyAfterTheRunEnds : Obligations.StepStopsOnlyAfterTheRunEnds :=
  fun _ => ⟨step_next_iff, runEnd_eq_none⟩

/-- Settles O49: neither the cycle nor the pacer writes the launch parameters. -/
theorem launchParametersAreFixed : Obligations.LaunchParametersAreFixed :=
  fun _ _ h => (step_params_inputs h).1

end Sys2Proof.Machine
end

section
/-! O54, O50, O51, O55: the invariant. Each part of an iteration keeps it: an instruction by its frame (`Writes`), a
cycle by what it can do, the pacer because it writes only its own state and leaves less than a frame of lag. -/

namespace Sys2Proof.Machine

open Sys2Proof.Safety

variable {s t u : State} {i : Instr}

/-! ### Records -/

/-- The one error of the decoder is an unrecognised word (R76, R77). -/
theorem decode_error {w : Word} {e : DecodeError} (h : decode w = .error e) : e = .unrecognised w := by
  unfold decode decodeFamily0 decodeFamily8 decodeFamilyE decodeFamilyF at h
  repeat' split at h
  all_goals cases h
  all_goals rfl

/-- The record of an instruction's own fault has the form of R167. -/
theorem recordOk_of_fault {k : FaultKind} {info : Option Nat} (h : faultOf i s = some (k, info)) :
    recordOk s.pc { kind := k, pc := some s.pc, word := some (encode i), info := info } := by
  cases i with
  | ret | drw | addI | ldB | ldMemVx | ldVxMem =>
    simp only [faultOf, Option.ite_none_right_eq_some, Option.some.injEq, Prod.mk.injEq] at h
    obtain ⟨hc, rfl, rfl⟩ := h
    simp [recordOk, encode, hc]
  | _ => cases h

/-- Raising a fault in a run that goes on keeps the invariant where the record has its form. -/
theorem raise_keeps_inv {k : FaultKind} {w : Option Word} {info : Option Nat} (h : Inv s) (hq : s.hasQuit = false)
    (hr : recordOk s.pc { kind := k, pc := some s.pc, word := w, info := info }) : Inv (s.raise k w info) :=
  { mem := h.mem, lag_nonneg := h.lag_nonneg, lag_lt := h.lag_lt, pc_le := h.pc_le, stack_le := h.stack_le
    record := by
      rintro r ⟨⟩
      exact hr
    one_end := by simp [hq] }

/-! ### The parts of an iteration -/

/-- An instruction fetched from inside memory keeps the invariant. -/
theorem exec_keeps_inv (h : Inv s) (hr : s.runEnd = none) (hpc : s.pc.toNat < 4095) (he : exec i s = .next t) :
    Inv t := by
  obtain ⟨hrun, hquit⟩ := runEnd_eq_none.1 hr
  have hw := writes_of_exec he
  have hk := exec_pacerKept he
  obtain ⟨k, info, hf, rfl⟩ | ⟨-, hstatus⟩ := hw.outcome
  · exact raise_keeps_inv h hquit (recordOk_of_fault hf)
  · have hrun' : t.status = .running := hstatus.trans hrun
    exact
      { mem := by rw [hk.params]; exact hw.mem_wf h.mem
        lag_nonneg := hk.lag ▸ h.lag_nonneg
        lag_lt := hk.lag ▸ h.lag_lt
        pc_le := by
          obtain e | e | e | e | e := hw.pc
          · rw [e]; exact h.pc_le
          · rw [e]; bv_omega
          · rw [e]; bv_omega
          · exact (h.stack_le _ e).trans (by decide)
          · exact e
        stack_le := by
          intro a ha
          obtain hs | rfl := hw.returns a ha
          · exact h.stack_le a hs
          · bv_omega
        record := by simp [hrun']
        one_end := fun _ => hrun' }

/-- A cycle of a run that goes on keeps the invariant. -/
theorem cycle_keeps_inv (h : Inv s) (hr : s.runEnd = none) (hc : cycle s = .next t) : Inv t := by
  have hquit := (runEnd_eq_none.1 hr).2
  obtain ⟨hf, e⟩ | ⟨w, d, -, hd, e⟩ | ⟨w, ins, hf, -, e⟩ := cycle_cases s
  · cases e.symm.trans hc
    exact raise_keeps_inv h hquit ⟨rfl, State.fetch_eq_none.1 hf, rfl, rfl⟩
  · cases e.symm.trans hc
    exact raise_keeps_inv h hquit ⟨rfl, ⟨w, rfl, decode_error hd ▸ hd⟩, rfl⟩
  · exact exec_keeps_inv h hr (State.fetch_eq_some.1 hf).1 (e.symm.trans hc)

/-- What the pacer leaves is less than a frame of lag, where it started so (R38, R183). -/
theorem pace_lag_bounds {ms : Rat} (hms : 0 ≤ ms) (h0 : 0 ≤ s.lag) (h1 : s.lag < frameMs) :
    0 ≤ (pace ms s).lag ∧ (pace ms s).lag < frameMs := by
  have hn : (noteRedraw s).lag = s.lag := by rw [noteRedraw_eq]
  obtain ⟨r, -, e⟩ | ⟨-, -, e⟩ | ⟨-, -, e⟩ := pace_cases ms s <;> rw [e]
  · exact ⟨h0, h1⟩
  · rw [hn]
    exact ⟨h0, h1⟩
  · exact accumulate_lag_bounds _ (by rw [hn]; exact add_nonneg h0 hms)

/-- The pacer keeps the invariant: of what the invariant speaks of it writes the lag alone. -/
theorem pace_keeps_inv {ms : Rat} (hms : 0 ≤ ms) (h : Inv s) : Inv (pace ms s) := by
  obtain ⟨h0, h1⟩ := pace_lag_bounds hms h.lag_nonneg (frameMs_eq ▸ h.lag_lt)
  have hk : EngineKept s (pace ms s) := pace_engineKept ms s
  unfold EngineKept at hk
  rw [hk]
  exact { h with lag_nonneg := h0, lag_lt := frameMs_eq ▸ h1 }

/-- A step keeps the invariant, whether it takes the quit or runs a cycle. -/
theorem step_keeps_inv (h : Inv s) (hs : step s = .next t) : Inv t := by
  obtain ⟨hr, rfl⟩ | ⟨⟨hr, -⟩, u, hu, rfl⟩ := step_cases hs
  · exact { h with one_end := fun _ => (runEnd_eq_none.1 hr).1 }
  · have hb : Inv s.beginCycle := { h with }
    have hp := pace_keeps_inv (elapsedMs_nonneg s.input) (cycle_keeps_inv hb hr hu)
    exact { hp with }

/-- Settles O54: the invariant is kept by the cycle and by the pacer, and a quit adds the quit mark to a running engine. -/
theorem stepKeepsInvariant : Obligations.StepKeepsInvariant :=
  fun _ _ => step_keeps_inv

/-! ### Reset -/

/-- The load writes memory, or the status and the outputs where the program is too long, and nothing else (R201). -/
theorem load_frame (program : List Byte) (s : State) :
    ∃ m st o, load program s = { s with mem := m, status := st, outputs := o } := by
  unfold load
  split
  · exact ⟨_, _, _, rfl⟩
  · exact ⟨_, _, _, State.setBytes_eq _ _ _⟩

/-- Settles O50: the load writes neither PC nor the framebuffer of the reset state. -/
theorem resetStatedValues : Obligations.ResetStatedValues := by
  intro p program
  obtain ⟨m, st, o, e⟩ := load_frame program (State.initial p)
  rw [boot, e]
  exact ⟨rfl, cell_blank⟩

/-- Settles O51: the load writes none of these fields of the reset state. -/
theorem resetChosenValues : Obligations.ResetChosenValues := by
  intro p program
  obtain ⟨m, st, o, e⟩ := load_frame program (State.initial p)
  rw [boot, e]
  exact ⟨fun r => by simp [State.reg, State.initial], rfl, rfl, rfl, rfl, rfl, rfl⟩

/-- The reset state meets the invariant: no cell listed, no lag, an empty stack, a running engine. -/
theorem initial_inv (p : LaunchParams) : Inv (State.initial p) :=
  { mem := State.initial_mem_wf p
    lag_nonneg := le_refl 0
    lag_lt := by norm_num [State.initial]
    pc_le := by simp [State.initial]
    stack_le := by simp [State.initial]
    record := by simp [State.initial]
    one_end := fun _ => rfl }

/-- Settles O55: `State.reset` is the reset state of the default launch parameters. -/
theorem resetMeetsInvariant : Obligations.ResetMeetsInvariant :=
  ⟨initial_inv, initial_inv defaultParams⟩

end Sys2Proof.Machine
end

section
/-! O47: the lag over a run. Each iteration moves a whole number of frames out of the lag, so a run does; the rest below
one frame fixes that number. -/

namespace Sys2Proof.Machine

open Sys2Proof.Safety

variable {s t u : State}

/-! ### Whole frames -/

/-- The spec's count of frames is the pacer's (R183). -/
theorem framesIn_eq_ticksDue (ms : Rat) : framesIn ms = ticksDue ms := by
  rw [framesIn, ticksDue, frameMs_eq]
  norm_num

/-- A rest below one frame fixes the number of whole frames. -/
theorem ticksDue_add_frames {l : Rat} (h0 : 0 ≤ l) (h1 : l < frameMs) (n : Nat) : ticksDue (l + n * frameMs) = n := by
  have hn : (0 : Rat) ≤ n * frameMs := mul_nonneg (Nat.cast_nonneg n) frameMs_pos.le
  have hle := ticksDue_le (add_nonneg h0 hn)
  have hlt := lt_ticksDue_succ (l + n * frameMs)
  have h2 : (ticksDue (l + n * frameMs) : Rat) < n + 1 := by
    refine lt_of_mul_lt_mul_right ?_ frameMs_pos.le
    linarith
  have h3 : (n : Rat) < ticksDue (l + n * frameMs) + 1 := by
    refine lt_of_mul_lt_mul_right ?_ frameMs_pos.le
    linarith
  have h2' : ticksDue (l + n * frameMs) < n + 1 := by exact_mod_cast h2
  have h3' : n < ticksDue (l + n * frameMs) + 1 := by exact_mod_cast h3
  omega

/-- `rest` is what remains of `total` below one frame when whole frames are taken out. -/
def IsFrameRest (total rest : Rat) : Prop := 0 ≤ rest ∧ rest < frameMs ∧ ∃ n : Nat, total = rest + n * frameMs

theorem IsFrameRest.eq {total rest : Rat} (h : IsFrameRest total rest) :
    rest = total - framesIn total * (1000 / 60) := by
  obtain ⟨h0, h1, n, rfl⟩ := h
  rw [framesIn_eq_ticksDue, ticksDue_add_frames h0 h1, frameMs_eq]
  ring

/-- Time that comes after whole frames were taken out adds to the rest. -/
theorem IsFrameRest.trans {a b ms rest : Rat} (h : IsFrameRest a b) (k : IsFrameRest (b + ms) rest) :
    IsFrameRest (a + ms) rest := by
  obtain ⟨-, -, m, rfl⟩ := h
  obtain ⟨h0, h1, n, hn⟩ := k
  refine ⟨h0, h1, m + n, ?_⟩
  push_cast
  linarith

/-! ### One step, and a run -/

/-- A step of a run that goes on under KEYWAIT_STALLS_TIMERS false takes whole frames out of the lag and the iteration's
elapsed time (R178, R183, R184). -/
theorem step_lag (hk : s.params.keywaitStallsTimers = false) (h0 : 0 ≤ s.lag) (hs : step s = .next t)
    (ht : t.runEnd = none) : IsFrameRest (s.lag + elapsedMs s.input) t.lag := by
  obtain ⟨hrun, hquit⟩ := runEnd_eq_none.1 ht
  obtain ⟨-, rfl⟩ | ⟨-, u, hu, rfl⟩ := step_cases hs
  · cases hquit
  · have hc := cycle_pacerKept hu
    have hstatus : u.status = .running := (congrArg State.status (pace_engineKept _ u)).symm.trans hrun
    obtain ⟨r, hr, -⟩ | ⟨-, hstall, -⟩ | ⟨-, -, e⟩ := pace_cases (elapsedMs s.input) u
    · rw [hstatus] at hr
      cases hr
    · simp [State.stalls, hc.params, hk] at hstall
    · have hn : (noteRedraw u).lag = s.lag := by rw [noteRedraw_eq]; exact hc.lag
      have hsum : 0 ≤ (noteRedraw u).lag + elapsedMs s.input := by
        rw [hn]
        exact add_nonneg h0 (elapsedMs_nonneg _)
      obtain ⟨hlo, hhi⟩ := accumulate_lag_bounds _ hsum
      rw [State.endIteration_lag, e, ← hn]
      refine ⟨hlo, hhi, ticksDue ((noteRedraw u).lag + elapsedMs s.input), ?_⟩
      rw [accumulate_eq _ hsum]
      ring

/-- A run of at least one step that answers: the first step answers, and the others are made from its next state. -/
theorem run_succ {M : Host.Core} {s t : M.State} {k : Nat} (h : M.run (k + 1) s = .next t) :
    ∃ u, M.step s = .next u ∧ M.run k u = .next t := by
  unfold Host.Core.run at h
  split at h
  · next u hu => exact ⟨u, hu, h⟩
  · cases h
  · cases h

/-- A run whose last state has not ended had not ended before. -/
theorem runEnd_eq_none_of_run {k : Nat} (h : Host.Core.run core k s = .next t) (ht : t.runEnd = none) :
    s.runEnd = none := by
  cases k with
  | zero =>
    cases h
    exact ht
  | succ k =>
    obtain ⟨u, hu, -⟩ := run_succ h
    exact step_next_iff.1 ⟨u, hu⟩

/-- The lag a run leaves, by induction on its iterations: each takes whole frames out and adds to the rest. -/
theorem run_lag {k : Nat} (hk : s.params.keywaitStallsTimers = false) (h0 : 0 ≤ s.lag) (h1 : s.lag < frameMs)
    (hlen : k ≤ s.inputs.length) (hr : Host.Core.run core k s = .next t) (ht : t.runEnd = none) :
    IsFrameRest (s.lag + ((s.inputs.take k).map elapsedMs).sum) t.lag := by
  induction k generalizing s with
  | zero =>
    cases hr
    exact ⟨h0, h1, 0, by simp⟩
  | succ k ih =>
    obtain ⟨u, hu, hrun⟩ := run_succ hr
    obtain ⟨hparams, hinputs⟩ := step_params_inputs hu
    have hfirst := step_lag hk h0 hu (runEnd_eq_none_of_run hrun ht)
    cases hi : s.inputs with
    | nil => simp [hi] at hlen
    | cons inp rest =>
      have hinp : s.input = inp := by simp only [State.input, hi]
      rw [hi, List.tail_cons] at hinputs
      rw [hi, List.length_cons] at hlen
      have hrest := ih (hparams ▸ hk) hfirst.1 hfirst.2.1 (by rw [hinputs]; omega) hrun
      rw [hinp] at hfirst
      rw [hinputs] at hrest
      have hsum := hfirst.trans hrest
      rwa [List.take_succ_cons, List.map_cons, List.sum_cons, ← add_assoc]

/-- Settles O47: the lag left is the rest of the whole time after frames, which determines it. -/
theorem lagOverARun : Obligations.LagOverARun := by
  rintro k s t hk h0 h1 hlen hr ht total rfl
  have hlt : s.lag < frameMs := by
    rw [frameMs_eq]
    linarith
  exact (run_lag hk h0 hlt hlen hr ht).eq

end Sys2Proof.Machine
end

section
/-! O6, O29, O30, O53, O5: memory as the run reads it. A step runs the word fetched at PC; that word is two bytes of
memory, which come from the starting image, from a placed word or from a block store. -/

namespace Sys2Proof.Machine

open Sys2Proof.Safety

variable {s t u : State} {i : Instr} {w : Word} {x r : Reg}

/-! ### The step on the word fetched -/

/-- Clearing the latest cycle's result and outputs does not touch what is fetched. -/
@[simp] theorem State.beginCycle_fetch (s : State) : s.beginCycle.fetch = s.fetch := rfl

/-- A cycle runs the instruction its fetched word decodes to (R71). -/
theorem cycle_of_fetch (hf : s.fetch = some w) (hd : decode w = .ok i) : cycle s = exec i s := by
  simp only [cycle, hf, hd]

/-- A continuing step paces what its cycle answers (R178). -/
theorem step_of_cycle (hc : Continues s) (hu : cycle s.beginCycle = .next u) :
    step s = .next (pace (elapsedMs s.input) u).endIteration := by
  obtain ⟨hr, hq⟩ := hc
  simp [step, iterate, hr, hq, hu]

/-- A continuing step whose fetched word decodes runs the instruction, which always answers, and then paces (R71, R178). -/
theorem step_of_fetch (hc : Continues s) (hf : s.fetch = some w) (hd : decode w = .ok i) :
    ∃ t, exec i s.beginCycle = .next t ∧ step s = .next (pace (elapsedMs s.input) t).endIteration := by
  obtain ⟨t, ht, -⟩ := exec_writes i s.beginCycle
  have hcycle : cycle s.beginCycle = .next t := (cycle_of_fetch (s := s.beginCycle) hf hd).trans ht
  exact ⟨t, ht, step_of_cycle hc hcycle⟩

/-- Settles O5: inside memory the fetch gives the word of the two bytes at PC. -/
theorem stepRunsDecodedInstruction : Obligations.StepRunsDecodedInstruction := by
  intro s i hc hpc hd
  have hf : s.fetch = some (wordOfBytes (s.byteAt s.pc.toNat) (s.byteAt (s.pc.toNat + 1))) :=
    State.fetch_eq_some.2 ⟨by omega, rfl⟩
  obtain ⟨t, ht, hstep⟩ := step_of_fetch hc hf hd
  rw [hstep, ht]

/-! ### A word placed at PC -/

/-- The two bytes that place a word numbered as the opcode table numbers it form that word (R53, R67). -/
theorem wordOfBytes_tableBytes (w : Word) :
    wordOfBytes (BitVec.ofNat 8 (w.toNat / 256)) (BitVec.ofNat 8 w.toNat) = w := by
  have := w.isLt
  apply BitVec.eq_of_toNat_eq
  simp only [wordOfBytes, BitVec.toNat_ofNat]
  omega

/-- The table's numbering of a word decodes as the word does. -/
theorem decodeTableWord_of_decode {n : Nat} (hd : decode w = .ok i) : decodeTableWord n w.toNat = some i := by
  simp only [decodeTableWord, decodeBytes, wordOfBytes_tableBytes, hd]

/-- Placing a word writes two bytes of memory; the inputs it also sets are not read with them. -/
theorem State.withFetchWord_byteAt (s : State) (n k a : Nat) : (s.withFetchWord n k).byteAt a =
    ((s.setByte s.pc.toNat (BitVec.ofNat 8 (k / 256))).setByte (s.pc.toNat + 1) (BitVec.ofNat 8 k)).byteAt a := rfl

@[simp] theorem State.withFetchWord_pc (s : State) (n k : Nat) : (s.withFetchWord n k).pc = s.pc := rfl

/-- A placed word is what the next fetch reads: its low byte, at PC + 1, does not overwrite the high one at PC. -/
theorem State.fetch_withFetchWord {n : Nat} (hpc : s.pc.toNat < 4095) :
    (s.withFetchWord n w.toNat).fetch = some w := by
  refine State.fetch_eq_some.2 ⟨hpc, ?_⟩
  rw [State.withFetchWord_pc, State.withFetchWord_byteAt, State.withFetchWord_byteAt,
    State.byteAt_setByte_other (by omega), State.byteAt_setByte_same, State.byteAt_setByte_same, wordOfBytes_tableBytes]

/-- Placing a word leaves a run that has not ended, and its coming inputs hold no quit. -/
theorem continues_withFetchWord {n k : Nat} (hr : s.runEnd = none) : Continues (s.withFetchWord n k) := ⟨hr, rfl⟩

/-- Settles O6: the placed word is fetched by a step that goes on. -/
theorem placedInstructionRuns : Obligations.PlacedInstructionRuns :=
  fun _ _ _ hr hpc hd =>
    ⟨decodeTableWord_of_decode hd, step_of_fetch (continues_withFetchWord hr) (State.fetch_withFetchWord hpc) hd⟩

/-! ### Block store and block load -/

/-- Inside memory Fx55 stores V0..Vx and moves I and PC (R124). -/
theorem exec_ldMemVx_of_lt (h : s.i.toNat + x.val < 4096) :
    exec (.ldMemVx x) s = .next ((s.setBytes s.i.toNat (s.regsUpTo x)).setI (s.iAfterBlock x)).advance := by
  obtain ⟨hb, -⟩ | ⟨-, e⟩ := execLdMemVx_cases x s
  · omega
  · exact e

/-- Inside memory Fx65 loads V0..Vx and moves I and PC (R125). -/
theorem exec_ldVxMem_of_lt (h : s.i.toNat + x.val < 4096) :
    exec (.ldVxMem x) s = .next ((s.setRegsUpTo x ((List.range (x.val + 1)).map fun k =>
      s.byteAt (s.i.toNat + k))).setI (s.iAfterBlock x)).advance := by
  obtain ⟨hb, -⟩ | ⟨-, e⟩ := execLdVxMem_cases x s
  · omega
  · exact e

/-- A stored register reads back at its own place in the block (R124). -/
theorem State.byteAt_setBytes_regsUpTo {a : Nat} (h : r ≤ x) :
    (s.setBytes a (s.regsUpTo x)).byteAt (a + r.val) = s.reg r := by
  have hk : r.val < (s.regsUpTo x).length := by
    rw [State.regsUpTo_length]
    exact Nat.lt_succ_of_le h
  rw [State.byteAt_setBytes_inside hk, State.regsUpTo_getElem hk]

/-- A register of the loaded block holds the byte at its own place (R125). -/
theorem State.reg_setRegsUpTo_range {f : Nat → Byte} (h : r ≤ x) :
    (s.setRegsUpTo x ((List.range (x.val + 1)).map f)).reg r = f r.val := by
  have hk : r.val < x.val + 1 := Nat.lt_succ_of_le h
  rw [State.reg_setRegsUpTo, if_pos h]
  simp [hk]

/-- Settles O29: the block load at the same address reads each byte the block store wrote, whatever the registers and I
became in between. -/
theorem storeThenLoadBringsBack : Obligations.StoreThenLoadBringsBack := by
  intro x s t v hb ht
  cases (exec_ldMemVx_of_lt hb).symm.trans ht
  refine ⟨_, exec_ldVxMem_of_lt hb, fun r hr => ?_⟩
  rw [State.advance_reg, State.setI_reg, State.reg_setRegsUpTo_range hr]
  exact State.byteAt_setBytes_regsUpTo hr

/-- Settles O30: the two bytes the next fetch reads are the places of Vr and Vr+1 in the stored block. -/
theorem storedBytesAreFetchedNext : Obligations.StoredBytesAreFetchedNext := by
  intro x r s hb hr hpc
  have hsucc : (r + 1).val = r.val + 1 := by
    have := x.isLt
    simp only [Fin.val_add, Fin.val_one]
    omega
  have first := State.byteAt_setBytes_regsUpTo (s := s) (a := s.i.toNat) (show r ≤ x by rw [Fin.le_def]; omega)
  have second := State.byteAt_setBytes_regsUpTo (s := s) (a := s.i.toNat) (show r + 1 ≤ x by rw [Fin.le_def]; omega)
  rw [hsucc, ← Nat.add_assoc] at second
  refine ⟨_, wordOfBytes (s.reg r) (s.reg (r + 1)), exec_ldMemVx_of_lt hb, State.fetch_eq_some.2 ⟨?_, ?_⟩, ?_⟩
  · rw [State.advance_pc, State.setI_pc, State.setBytes_pc]
    omega
  · simp only [State.advance_pc, State.setI_pc, State.setBytes_pc, State.advance_byteAt, State.setI_byteAt, hpc,
      first, second]
  · have := (s.reg r).isLt
    have := (s.reg (r + 1)).isLt
    simp only [wordOfBytes, BitVec.toNat_ofNat]
    omega

/-! ### The starting memory -/

/-- A program that fits is copied from 0x200 on (R201). -/
theorem load_of_le {program : List Byte} (h : program.length ≤ 3584) : load program s = s.setBytes 0x200 program :=
  if_neg (not_lt.2 h)

/-- An address that no byte of the program covers reads as at reset (R200). -/
theorem boot_byteAt_outside {p : LaunchParams} {program : List Byte} {a : Nat} (hlen : program.length ≤ 3584)
    (ha : a < 0x200 ∨ 0x200 + program.length ≤ a) : (boot p program).byteAt a = Memory.resetByte p a := by
  rw [boot, load_of_le hlen, State.byteAt_setBytes_outside ha]
  rfl

/-- Settles O53: the program covers its own addresses only, and the reset image is FONT below 80 and INIT_MEM above. -/
theorem startingMemoryMap : Obligations.StartingMemoryMap := by
  intro p program hlen
  refine ⟨fun a ha => ?_, fun k hk => ?_, fun a ha hout => ?_⟩
  · rw [boot_byteAt_outside hlen (by omega)]
    exact dif_pos ha
  · rw [boot, load_of_le hlen]
    exact State.byteAt_setBytes_inside hk
  · rw [boot_byteAt_outside hlen hout]
    exact dif_neg (by omega)

end Sys2Proof.Machine
end

section
/-! O1, O2, O3, O4: decoding and encoding. Decoding an encoded word reads the fields it was built from; a word that
decodes is built again from its own fields; the words left over are those no family lists. -/

namespace Sys2Proof

variable {op n : Nat} {w : Word} {i : Instr} {nn : Byte} {a b : Addr}

/-! ### Decoding an encoding -/

theorem encodeA_inj (ho : op < 16) : encodeA op a = encodeA op b ↔ a = b := by
  refine ⟨fun h => ?_, fun h => h ▸ rfl⟩
  have hf := congrArg fieldNnn h
  rwa [fieldNnn_encodeA ho, fieldNnn_encodeA ho] at hf

/-- The word of a well-formed SYS is neither 00E0 nor 00EE, which are the words of its two excluded values (R74). -/
theorem encodeA_sys_ne (h : sysFieldOk a = true) : encodeA 0 a ≠ 0x00E0#16 ∧ encodeA 0 a ≠ 0x00EE#16 := by
  simp only [sysFieldOk, Bool.and_eq_true, bne_iff_ne] at h
  obtain ⟨hcls, hret⟩ := h
  exact ⟨fun e => hcls ((encodeA_inj (by decide)).1 (e.trans (by decide))),
    fun e => hret ((encodeA_inj (by decide)).1 (e.trans (by decide)))⟩

/-- An encoded word decodes to its instruction: its high nibble selects the family, its low nibble or byte the
instruction, and its fields are the operands (R68, R74, R83). -/
theorem decode_encode (h : i.wellFormed = true) : decode (encode i) = .ok i := by
  cases i with
  | cls | ret => decide
  | sys nnn =>
    obtain ⟨hcls, hret⟩ := encodeA_sys_ne h
    simp [encode, decode, decodeFamily0, slice_15_12_encodeA, fieldNnn_encodeA, hcls, hret]
  | jp | call | ldI | jpV0 => simp [encode, decode, slice_15_12_encodeA, fieldNnn_encodeA]
  | seImm | sneImm | ldImm | addImm | rnd =>
    simp [encode, decode, slice_15_12_encodeXK, fieldX_encodeXK, fieldNn_encodeXK]
  | seReg | sneReg =>
    simp [encode, decode, slice_15_12_encodeXYN, slice_3_0_encodeXYN, fieldX_encodeXYN, fieldY_encodeXYN]
  | ldReg | orReg | andReg | xorReg | addReg | subReg | shrReg | subnReg | shlReg =>
    simp [encode, decode, decodeFamily8, slice_15_12_encodeXYN, slice_3_0_encodeXYN, fieldX_encodeXYN,
      fieldY_encodeXYN]
  | drw x y n =>
    simp [encode, decode, slice_15_12_encodeXYN, fieldX_encodeXYN, fieldY_encodeXYN, fieldN_encodeXYN]
  | skp | sknp => simp [encode, decode, decodeFamilyE, slice_15_12_encodeXK, slice_7_0_encodeXK, fieldX_encodeXK]
  | ldVxDt | ldVxK | ldDtVx | ldStVx | addI | ldF | ldB | ldMemVx | ldVxMem =>
    simp [encode, decode, decodeFamilyF, slice_15_12_encodeXK, slice_7_0_encodeXK, fieldX_encodeXK]

/-- The bytes of an instruction decode as its word does, with whatever follows left over (R53, R65). -/
theorem decodeBytes_encodeBytes (h : decode (encode i) = .ok i) (rest : List Byte) :
    decodeBytes (encodeBytes i ++ rest) = .ok (i, rest) := by
  simp only [encodeBytes, List.cons_append, List.nil_append, decodeBytes, wordOfBytes_bytes, h]

/-- Settles O1: the word decodes, and its two bytes form that word again. -/
theorem decodeEncodeRoundTrip : Obligations.DecodeEncodeRoundTrip :=
  fun _ h => ⟨decode_encode h, decodeBytes_encodeBytes (decode_encode h)⟩

/-! ### Encoding what a word decodes to -/

theorem encodeA_of_slice (hop : slice w 15 12 = op) : encodeA op (fieldNnn w) = w := hop ▸ encodeA_fields w

theorem encodeXK_of_slice (hop : slice w 15 12 = op) : encodeXK op (fieldX w) (fieldNn w) = w :=
  hop ▸ encodeXK_fields w

/-- A word of a given high nibble and low byte holds nothing else but its x (R83, format X). -/
theorem encodeXK_of_slices (hop : slice w 15 12 = op) (hlow : slice w 7 0 = nn.toNat) :
    encodeXK op (fieldX w) nn = w := by
  have hnn : fieldNn w = nn := by rw [fieldNn, hlow, BitVec.ofNat_toNat, BitVec.setWidth_eq]
  rw [← hnn, encodeXK_of_slice hop]

theorem encodeXYN_of_slices (hop : slice w 15 12 = op) (hlow : slice w 3 0 = n) :
    encodeXYN op (fieldX w) (fieldY w) n = w := by
  rw [← hop, ← hlow, encodeXYN_fields]

/-- `i` is a well-formed instruction whose word is `w`. -/
def Encodes (i : Instr) (w : Word) : Prop := i.wellFormed = true ∧ encode i = w

theorem decodeFamily0_encodes (hop : slice w 15 12 = 0) (h : decodeFamily0 w = .ok i) : Encodes i w := by
  unfold decodeFamily0 at h
  split at h
  · next hw => cases h; exact ⟨rfl, hw.symm⟩
  split at h
  · next hw => cases h; exact ⟨rfl, hw.symm⟩
  next hcls hret =>
  cases h
  have hw : encodeA 0 (fieldNnn w) = w := encodeA_of_slice hop
  have hne : ∀ c : Addr, w ≠ encodeA 0 c → fieldNnn w ≠ c := fun c hc e => hc (by rw [← e, hw])
  refine ⟨?_, hw⟩
  simp only [Instr.wellFormed, sysFieldOk, Bool.and_eq_true, bne_iff_ne]
  exact ⟨hne _ hcls, hne _ hret⟩

theorem decodeFamily8_encodes (hop : slice w 15 12 = 8) (h : decodeFamily8 w = .ok i) : Encodes i w := by
  unfold decodeFamily8 at h
  split at h
  case h_10 => cases h
  all_goals
    next hlow =>
    cases h
    exact ⟨rfl, encodeXYN_of_slices hop hlow⟩

theorem decodeFamilyE_encodes (hop : slice w 15 12 = 0xE) (h : decodeFamilyE w = .ok i) : Encodes i w := by
  unfold decodeFamilyE at h
  split at h
  case h_3 => cases h
  all_goals
    next hlow =>
    cases h
    exact ⟨rfl, encodeXK_of_slices hop hlow⟩

theorem decodeFamilyF_encodes (hop : slice w 15 12 = 0xF) (h : decodeFamilyF w = .ok i) : Encodes i w := by
  unfold decodeFamilyF at h
  split at h
  case h_10 => cases h
  all_goals
    next hlow =>
    cases h
    exact ⟨rfl, encodeXK_of_slices hop hlow⟩

/-- A word that decodes is put together again from its high nibble and the fields its family reads (R69, R83). -/
theorem encodes_of_decode (h : decode w = .ok i) : Encodes i w := by
  unfold decode at h
  split at h
  -- The four families that dispatch further.
  case h_1 hop => exact decodeFamily0_encodes hop h
  case h_9 hop => exact decodeFamily8_encodes hop h
  case h_15 hop => exact decodeFamilyE_encodes hop h
  case h_16 hop => exact decodeFamilyF_encodes hop h
  -- 1nnn, 2nnn, Annn, Bnnn.
  case h_2 hop | h_3 hop | h_11 hop | h_12 hop =>
    cases h
    exact ⟨rfl, encodeA_of_slice hop⟩
  -- 3xnn, 4xnn, 6xnn, 7xnn, Cxnn.
  case h_4 hop | h_5 hop | h_7 hop | h_8 hop | h_13 hop =>
    cases h
    exact ⟨rfl, encodeXK_of_slice hop⟩
  -- 5xy0, 9xy0: a low nibble other than 0 does not decode (D18).
  case h_6 hop | h_10 hop =>
    split at h
    · next hlow =>
      cases h
      exact ⟨rfl, encodeXYN_of_slices hop hlow⟩
    · cases h
  -- Dxyn.
  case h_14 hop =>
    cases h
    exact ⟨rfl, encodeXYN_of_slices hop (by rw [slice_3_0, fieldN_val])⟩
  case h_17 => cases h

/-- Settles O2: no family drops a bit of the word. -/
theorem decodedWordIsItsEncoding : Obligations.DecodedWordIsItsEncoding :=
  fun _ _ => encodes_of_decode

/-! ### The words that do not decode -/

theorem decodeFamily0_ne_error (w : Word) (e : DecodeError) : decodeFamily0 w ≠ .error e := by
  unfold decodeFamily0
  split
  · nofun
  · split <;> nofun

theorem decodeFamily8_eq_error : decodeFamily8 w = .error (.unrecognised w) ↔
    w.toNat % 16 ∈ [0x8, 0x9, 0xA, 0xB, 0xC, 0xD, 0xF] := by
  unfold decodeFamily8
  rw [slice_3_0]
  split
  case h_10 =>
    refine iff_of_true rfl ?_
    simp only [List.mem_cons, List.not_mem_nil, or_false, imp_false] at *
    omega
  all_goals next hlow => simp [hlow]

theorem decodeFamilyE_eq_error : decodeFamilyE w = .error (.unrecognised w) ↔ w.toNat % 256 ∉ [0x9E, 0xA1] := by
  unfold decodeFamilyE
  rw [slice_7_0]
  split
  case h_3 =>
    refine iff_of_true rfl ?_
    simp only [List.mem_cons, List.not_mem_nil, or_false, imp_false] at *
    omega
  all_goals next hlow => simp [hlow]

theorem decodeFamilyF_eq_error : decodeFamilyF w = .error (.unrecognised w) ↔
    w.toNat % 256 ∉ [0x07, 0x0A, 0x15, 0x18, 0x1E, 0x29, 0x33, 0x55, 0x65] := by
  unfold decodeFamilyF
  rw [slice_7_0]
  split
  case h_10 =>
    refine iff_of_true rfl ?_
    simp only [List.mem_cons, List.not_mem_nil, or_false, imp_false] at *
    omega
  all_goals next hlow => simp [hlow]

/-- An error of the decoder is always that the word is unrecognised, under its own value (R82). -/
theorem decode_ok_or_unrecognised (w : Word) : (∃ i, decode w = .ok i) ∨ decode w = .error (.unrecognised w) := by
  cases hd : decode w with
  | ok i => exact .inl ⟨i, rfl⟩
  | error e => exact .inr (by rw [Machine.decode_error hd])

/-- Settles O3: the words that do not decode, family by family. -/
theorem unrecognisedWordsAreThoseListed : Obligations.UnrecognisedWordsAreThoseListed := by
  refine fun w => ⟨decode_ok_or_unrecognised w, ?_⟩
  rw [decode, slice_15_12, slice_3_0]
  split
  -- The four families that dispatch further.
  case h_1 hop => simp [hop, decodeFamily0_ne_error]
  case h_9 hop => simp [hop, decodeFamily8_eq_error]
  case h_15 hop => simp [hop, decodeFamilyE_eq_error]
  case h_16 hop => simp [hop, decodeFamilyF_eq_error]
  -- 5xyn, 9xyn (D18).
  case h_6 hop | h_10 hop => by_cases hlow : w.toNat % 16 = 0 <;> simp [hop, hlow]
  -- A nibble is below 16.
  case h_17 =>
    have := w.isLt
    simp only [imp_false] at *
    omega
  -- The families that decode every word.
  all_goals next hop => simp [hop]

/-- Settles O4: the decoder run on each of the twelve words. -/
theorem specWordsDecode : Obligations.SpecWordsDecode := by
  unfold Obligations.SpecWordsDecode
  decide

end Sys2Proof
end

section
/-! O10, O7, O17, O43, O41: what an instruction answers where its own check fails, and where it does not. -/

namespace Sys2Proof.Machine

open Sys2Proof.Safety

variable {s t : State} {i : Instr} {x y : Reg} {n : RowCount}

/-! ### An instruction's own check -/

/-- An instruction that fails its own check answers the state with the record (R165, R167). -/
theorem exec_of_fault {k : FaultKind} {info : Option Nat} (hf : faultOf i s = some (k, info)) :
    exec i s = .next (haltedBy i k info s) := by
  obtain ⟨t, he, hw⟩ := exec_writes i s
  obtain ⟨k', info', hf', rfl⟩ | ⟨hnone, -⟩ := hw.outcome
  · cases hf.symm.trans hf'
    exact he
  · cases hf.symm.trans hnone

/-- Settles O10: the two outcomes of the frame of an instruction. -/
theorem faultsAreExactlyThoseListed : Obligations.FaultsAreExactlyThoseListed := by
  refine fun i s => ⟨fun k info => exec_of_fault, fun hf => ?_⟩
  obtain ⟨t, he, hw⟩ := exec_writes i s
  obtain ⟨k, info, hf', -⟩ | ⟨-, hstatus⟩ := hw.outcome
  · cases hf.symm.trans hf'
  · exact ⟨t, he, hstatus⟩

/-! ### A cycle that faults -/

/-- A continuing step whose cycle raises a fault surfaces the record and does nothing else: no tick, no redraw flag, no
accumulation (R165, R192). -/
theorem step_of_raise {r : FaultRecord} (hc : Continues s)
    (hr : cycle s.beginCycle = .next { s.beginCycle with status := .halted r }) :
    step s = .next (haltedIteration r s) :=
  step_of_cycle hc hr

/-- Settles O7: the fetch, the decoder or the instruction raises the record, and the iteration ends. -/
theorem faultEndsTheIteration : Obligations.FaultEndsTheIteration := by
  refine fun s hc => ⟨fun hpc => ?_, fun w hpc hw => ?_⟩
  · have hfetch : s.beginCycle.fetch = none := State.fetch_eq_none.2 hpc
    exact step_of_raise hc (by rw [cycle, hfetch]; rfl)
  have hfetch : s.beginCycle.fetch = some w := State.fetch_eq_some.2 ⟨hpc, hw⟩
  refine ⟨fun hd => ?_, fun i k info hd hf => ?_⟩
  · exact step_of_raise hc (by simp only [cycle, hfetch, hd]; rfl)
  · obtain ⟨-, rfl⟩ := encodes_of_decode hd
    exact step_of_raise hc ((cycle_of_fetch hfetch hd).trans (exec_of_fault (s := s.beginCycle) hf))

/-! ### What an instruction answers where its own check holds -/

/-- RET jumps to the top entry and drops it (R85). -/
theorem exec_ret_of_noFault (hf : faultOf .ret s = none) :
    exec .ret s = .next { s with stack := s.stack.dropLast, pc := s.stack.getLastD 0 } := by
  obtain ⟨hs, -⟩ | ⟨l, a, hs, e⟩ := execRet_cases s
  · cases hf.symm.trans (if_pos hs)
  · exact e.trans (by simp [hs])

/-- Dxyn draws the sprite at I (R140). -/
theorem exec_drw_of_noFault (hf : faultOf (.drw x y n) s = none) :
    ∃ q, q = draw s.fb (s.reg x).toNat (s.reg y).toNat ((List.range n.val).map fun k => s.byteAt (s.i.toNat + k)) ∧
      exec (.drw x y n) s = .next (((s.setFb q.1).setReg VF (flagByte q.2)).signalRedraw).advance := by
  obtain ⟨hb, -⟩ | ⟨-, h⟩ := execDrw_cases x y n s
  · cases hf.symm.trans (if_pos (by omega))
  · exact h

/-- Fx1E leaves the sum in I (R121). -/
theorem exec_addI_of_noFault (hf : faultOf (.addI x) s = none) :
    exec (.addI x) s = .next (s.setI (BitVec.ofNat 16 (s.i.toNat + (s.reg x).toNat))).advance := by
  obtain ⟨hb, -⟩ | ⟨-, e⟩ := execAddI_cases x s
  · cases hf.symm.trans (if_pos hb)
  · exact e

/-- Fx33 stores the three digits at I (R123). -/
theorem exec_ldB_of_noFault (hf : faultOf (.ldB x) s = none) :
    exec (.ldB x) s = .next (s.setBytes s.i.toNat (bcdDigits (s.reg x))).advance := by
  obtain ⟨hb, -⟩ | ⟨-, e⟩ := execLdB_cases x s
  · cases hf.symm.trans (if_pos hb)
  · exact e

/-- Fx0A completes with the key of the iteration's event (R154). -/
theorem exec_ldVxK_of_event {k : Key} (hk : s.input.keyEvent = some k) :
    exec (.ldVxK x) s = .next (s.setReg x (keyByte k)).advance := by
  simp only [exec, execLdVxK, hk]

/-- Fx0A is blocked without an event (R154). -/
theorem exec_ldVxK_of_no_event (hk : s.input.keyEvent = none) : exec (.ldVxK x) s = .next s.block := by
  simp only [exec, execLdVxK, hk]

/-! ### What a cycle that raises no fault leaves in PC and as its result -/

/-- Fx0A waits where the iteration has no key event (R154). -/
def Waits (i : Instr) (s : State) : Prop := (∃ x, i = .ldVxK x) ∧ s.input.keyEvent = none

/-- The instructions that change the framebuffer (R141). -/
def Redraws (i : Instr) : Prop := i = .cls ∨ ∃ x y n, i = .drw x y n

/-- The instructions that set PC otherwise than by the default advance: return, jumps, call and skips (R72). -/
def setsPc : Instr → Bool
  | .ret | .jp _ | .call _ | .jpV0 _ | .seImm _ _ | .sneImm _ _ | .seReg _ _ | .sneReg _ _ | .skp _ | .sknp _ => true
  | .cls | .sys _ | .ldImm _ _ | .addImm _ _ | .ldReg _ _ | .orReg _ _ | .andReg _ _ | .xorReg _ _ | .addReg _ _
  | .subReg _ _ | .shrReg _ _ | .subnReg _ _ | .shlReg _ _ | .ldI _ | .rnd _ _ | .drw _ _ _ | .ldVxDt _ | .ldVxK _
  | .ldDtVx _ | .ldStVx _ | .addI _ | .ldF _ | .ldB _ | .ldMemVx _ | .ldVxMem _ => false

/-- What a cycle that raises no fault leaves in PC and as its result (R71, R72). A field's default proof serves the
instructions that advance and signal nothing, so a case below names what it does otherwise. -/
structure Completes (i : Instr) (s t : State) : Prop where
  pc : setsPc i = false → ¬Waits i s → t.pc = s.pc + 2 := by intros; rfl
  redraw : Redraws i → t.result = .completed true := by simp [Redraws]
  blocked : Waits i s → t.result = .blocked := by simp [Waits]
  quiet : ¬Redraws i → ¬Waits i s → t.result = s.result := by simp

/-- An instruction whose own check holds completes as R71 and R72 say, Fx0A without an event by waiting. -/
theorem exec_completes (hf : faultOf i s = none) : ∃ t, exec i s = .next t ∧ Completes i s t := by
  cases i with
  | cls => exact ⟨_, rfl, { redraw := fun _ => rfl, quiet := fun h => absurd (.inl rfl) h }⟩
  | drw x y n =>
    obtain ⟨q, -, e⟩ := exec_drw_of_noFault hf
    exact ⟨_, e, { redraw := fun _ => rfl, quiet := fun h => absurd (.inr ⟨x, y, n, rfl⟩) h }⟩
  | ldVxK x =>
    cases hk : s.input.keyEvent with
    | some k => exact ⟨_, exec_ldVxK_of_event hk, { blocked := fun h => by simp [Waits, hk] at h }⟩
    | none =>
      have hw : Waits (.ldVxK x) s := ⟨⟨x, rfl⟩, hk⟩
      exact ⟨_, exec_ldVxK_of_no_event hk,
        { pc := fun _ h => absurd hw h, blocked := fun _ => rfl, quiet := fun _ h => absurd hw h }⟩
  | ret => exact ⟨_, exec_ret_of_noFault hf, { pc := nofun }⟩
  | jp | call | jpV0 | seImm | sneImm | seReg | sneReg | skp | sknp => exact ⟨_, rfl, { pc := nofun }⟩
  | addI x => exact ⟨_, exec_addI_of_noFault hf, {}⟩
  | ldB x => exact ⟨_, exec_ldB_of_noFault hf, { pc := by simp }⟩
  | ldMemVx x => exact ⟨_, exec_ldMemVx_of_lt (by simpa [faultOf] using hf), { pc := by simp }⟩
  | ldVxMem x => exact ⟨_, exec_ldVxMem_of_lt (by simpa [faultOf] using hf), {}⟩
  | _ => exact ⟨_, rfl, {}⟩

/-- The completion of an instruction, read off its one next state. -/
theorem completes_of_exec (hf : faultOf i s = none) (h : exec i s = .next t) : Completes i s t := by
  obtain ⟨u, e, hc⟩ := exec_completes hf
  cases h.symm.trans e
  exact hc

/-- Settles O17: an instruction left over by the hypotheses is one that takes the default advance. -/
theorem otherInstructionsAdvanceByTwo : Obligations.OtherInstructionsAdvanceByTwo := by
  intro i s t hret hjump himm hreg hkey hf hevent h
  have hpc : setsPc i = false := by
    cases i with
    | ret => exact absurd rfl hret
    | jp a => exact absurd rfl (hjump a).1
    | call a => exact absurd rfl (hjump a).2.1
    | jpV0 a => exact absurd rfl (hjump a).2.2
    | seImm x nn => exact absurd rfl (himm x nn).1
    | sneImm x nn => exact absurd rfl (himm x nn).2
    | seReg x y => exact absurd rfl (hreg x y).1
    | sneReg x y => exact absurd rfl (hreg x y).2
    | skp x => exact absurd rfl (hkey x).1
    | sknp x => exact absurd rfl (hkey x).2
    | _ => rfl
  exact (completes_of_exec hf h).pc hpc fun ⟨hk, hnone⟩ => hevent hk hnone

/-- Settles O43: the cycle starts from a result that is neither, and no instruction both redraws and waits. -/
theorem redrawAndBlockedResults : Obligations.RedrawAndBlockedResults := by
  intro i s t hf h
  have hc : Completes i s.beginCycle t := completes_of_exec hf h
  change (_ ↔ Redraws i) ∧ (_ ↔ Waits i s.beginCycle)
  by_cases hr : Redraws i
  · have hw : ¬Waits i s.beginCycle := by
      rintro ⟨⟨x, rfl⟩, -⟩
      simp [Redraws] at hr
    simp [hc.redraw hr, hr, hw]
  by_cases hw : Waits i s.beginCycle
  · simp [hc.blocked hw, hr, hw]
  · simp [hc.quiet hr hw, hr, hw]

/-! ### QUIRKS -/

variable {q : Bool}

/-- A cell reads as listed, or as FONT and INIT_MEM have it: QUIRKS is not looked at (R47, R58). -/
theorem Memory.read_quirks (p : LaunchParams) (m : List Host.Cell) (a : Nat) :
    Memory.read { p with quirks := q } m a = Memory.read p m a := by
  induction m with
  | nil => rfl
  | cons c m ih => simp only [Memory.read, ih]

theorem byteAt_withQuirks (s : State) (a : Nat) : (withQuirks q s).byteAt a = s.byteAt a :=
  Memory.read_quirks s.params s.mem a

theorem setBytes_withQuirks (s : State) (a : Nat) (bs : List Byte) :
    (withQuirks q s).setBytes a bs = withQuirks q (s.setBytes a bs) := by
  induction bs generalizing s a with
  | nil => rfl
  | cons b bs ih => exact ih (s.setByte a b) (a + 1)

/-- Where its own check holds, an instruction other than the shifts and block transfers does not see QUIRKS (R81). -/
theorem exec_withQuirks (hshift : ∀ x y, i ≠ .shrReg x y ∧ i ≠ .shlReg x y)
    (hblock : ∀ x, i ≠ .ldMemVx x ∧ i ≠ .ldVxMem x) (hf : faultOf i s = none) (h : exec i s = .next t) :
    exec i (withQuirks q s) = .next (withQuirks q t) := by
  cases i with
  | shrReg x y => exact absurd rfl (hshift x y).1
  | shlReg x y => exact absurd rfl (hshift x y).2
  | ldMemVx x => exact absurd rfl (hblock x).1
  | ldVxMem x => exact absurd rfl (hblock x).2
  | ret =>
    cases h.symm.trans (exec_ret_of_noFault hf)
    exact exec_ret_of_noFault (s := withQuirks q s) hf
  | addI x =>
    cases h.symm.trans (exec_addI_of_noFault hf)
    exact exec_addI_of_noFault (s := withQuirks q s) hf
  | drw x y n =>
    obtain ⟨p, hp, e⟩ := exec_drw_of_noFault hf
    obtain ⟨p', hp', e'⟩ := exec_drw_of_noFault (s := withQuirks q s) hf
    simp only [byteAt_withQuirks] at hp'
    cases hp'.trans hp.symm
    cases h.symm.trans e
    exact e'
  | ldB x =>
    cases h.symm.trans (exec_ldB_of_noFault hf)
    rw [exec_ldB_of_noFault (s := withQuirks q s) hf, setBytes_withQuirks]
    rfl
  | ldVxK x =>
    cases hk : s.input.keyEvent with
    | some k =>
      cases h.symm.trans (exec_ldVxK_of_event hk)
      exact exec_ldVxK_of_event (s := withQuirks q s) hk
    | none =>
      cases h.symm.trans (exec_ldVxK_of_no_event hk)
      exact exec_ldVxK_of_no_event (s := withQuirks q s) hk
  | _ =>
    cases h
    rfl

/-- Settles O41: no check of an instruction sees QUIRKS, nor does the record of a fault. -/
theorem quirksChangeFourInstructions : Obligations.QuirksChangeFourInstructions := by
  intro i s t q hshift hblock h
  cases hf : faultOf i s with
  | none => exact exec_withQuirks hshift hblock hf h
  | some r =>
    cases h.symm.trans (exec_of_fault hf)
    exact exec_of_fault (s := withQuirks q s) hf

end Sys2Proof.Machine
end

section
/-! O11, O12, O13, O14, O15, O16: control flow. The words are encodings, so they decode; the no-op, the jumps and the
compares set PC alone; a return pops what a call has pushed. -/

namespace Sys2Proof.Machine

open Sys2Proof.Safety

variable {s : State} {x y : Reg}

/-! ### Setting PC alone -/

/-- The default advance, a skip and a jump are each a state with another PC (R72, R94). -/
theorem onlyPc_withPc (s : State) (a : Word) : OnlyPc s { s with pc := a } := ⟨rfl, fun _ => rfl⟩

/-- The target of 1nnn and 2nnn is nnn itself (R87, R88). -/
theorem addrWord_toNat (nnn : Addr) : (addrWord nnn).toNat = nnn.toNat := by
  have := nnn.isLt
  simp only [addrWord, BitVec.toNat_setWidth]
  omega

/-- The sum of Bnnn fits in 16 bits, so it is not reduced (R93). -/
theorem offsetTarget_toNat (s : State) (nnn : Addr) : (offsetTarget s nnn).toNat = nnn.toNat + (s.reg 0).toNat := by
  have := nnn.isLt
  have := (s.reg 0).isLt
  simp only [offsetTarget, BitVec.toNat_ofNat]
  omega

/-- Settles O11: a nnn other than those of CLS and RET makes a well-formed SYS, which advances. -/
theorem sysOnlyAdvances : Obligations.SysOnlyAdvances := by
  refine fun nnn s => ⟨fun hcls hret => ?_, _, rfl, onlyPc_withPc s _, rfl⟩
  have hword : encode (.sys nnn) = BitVec.ofNat 16 nnn.toNat := by rw [encode, encodeA, Nat.zero_mul, Nat.zero_add]
  have hwf : sysFieldOk nnn = true := Bool.and_eq_true_iff.2 ⟨bne_iff_ne.2 hcls, bne_iff_ne.2 hret⟩
  exact hword ▸ decode_encode hwf

/-- Settles O12: both jumps set PC alone, each to its target. -/
theorem jumpsSetPc : Obligations.JumpsSetPc := fun nnn s =>
  ⟨decode_encode (i := .jp nnn) rfl, decode_encode (i := .jpV0 nnn) rfl,
    ⟨_, rfl, onlyPc_withPc s _, addrWord_toNat nnn⟩, ⟨_, rfl, onlyPc_withPc s _, offsetTarget_toNat s nnn⟩⟩

/-! ### Call and return -/

/-- Settles O13: the call appends to the stack and jumps. -/
theorem callPushesReturnAddress : Obligations.CallPushesReturnAddress := fun nnn _ =>
  ⟨decode_encode (i := .call nnn) rfl, _, rfl, rfl, addrWord_toNat nnn, rfl, fun _ => rfl⟩

/-- 00EE takes the last entry off the stack and jumps to it (R85). -/
theorem exec_ret_of_stack {l : List Word} {a : Word} (h : s.stack = l ++ [a]) :
    exec .ret s = .next { s with stack := l, pc := a } := by
  have hf : faultOf .ret s = none := if_neg (by simp [h])
  rw [exec_ret_of_noFault hf, h, List.dropLast_concat, List.getLastD_concat]

/-- Settles O14: the two outcomes of a return, by its own check. -/
theorem retPopsReturnAddress : Obligations.RetPopsReturnAddress := fun _ =>
  ⟨decode_encode (i := .ret) rfl, fun _ _ hs => ⟨_, exec_ret_of_stack hs, rfl, rfl, rfl, fun _ => rfl⟩,
    fun hs => exec_of_fault (i := .ret) (if_pos hs)⟩

/-- Settles O15: the entry the return pops is the one the call has pushed. -/
theorem callThenReturn : Obligations.CallThenReturn := by
  rintro nnn s _ ⟨⟩
  exact exec_ret_of_stack (l := s.stack) (a := s.pc + 2) rfl

/-! ### The compares -/

/-- 5xyn and 9xyn decode only where the low nibble is 0 (R76, D18). -/
theorem decode_compare_ne_ok {op n : Nat} (hop : op = 5 ∨ op = 9) (h1 : 1 ≤ n) (h15 : n ≤ 15) (i : Instr) :
    decode (encodeXYN op x y n) ≠ .ok i := by
  have hop16 : op < 16 := by omega
  have hn : n ≠ 0 := by omega
  have hhigh : slice (encodeXYN op x y n) 15 12 = op := slice_15_12_encodeXYN hop16 (by omega)
  have hlow : slice (encodeXYN op x y n) 3 0 = n := slice_3_0_encodeXYN hop16 (by omega)
  obtain rfl | rfl := hop <;> simp [decode, hhigh, hlow, hn]

theorem skipIf_beq_pc (s : State) (a b : Byte) :
    (s.skipIf (a == b)).pc = if a = b then s.pc + 4 else s.pc + 2 := by
  simp only [State.skipIf_pc, beq_iff_eq]

theorem skipIf_bne_pc (s : State) (a b : Byte) :
    (s.skipIf (a != b)).pc = if a = b then s.pc + 2 else s.pc + 4 := by
  simp only [State.skipIf_pc, bne_iff_ne, ite_not]

/-- Settles O16: each compare is a skip on the (in)equality of its operands. -/
theorem comparesSkip : Obligations.ComparesSkip := fun x y nn s =>
  ⟨decode_encode (i := .seImm x nn) rfl, decode_encode (i := .sneImm x nn) rfl,
    decode_encode (i := .seReg x y) rfl, decode_encode (i := .sneReg x y) rfl,
    fun _ h1 h15 =>
      ⟨decode_compare_ne_ok (op := 5) (.inl rfl) h1 h15, decode_compare_ne_ok (op := 9) (.inr rfl) h1 h15⟩,
    ⟨_, rfl, onlyPc_withPc s _, skipIf_beq_pc s _ _⟩, ⟨_, rfl, onlyPc_withPc s _, skipIf_bne_pc s _ _⟩,
    ⟨_, rfl, onlyPc_withPc s _, skipIf_beq_pc s _ _⟩, ⟨_, rfl, onlyPc_withPc s _, skipIf_bne_pc s _ _⟩⟩

end Sys2Proof.Machine
end

section
/-! O20, O21, O22, O18, O19, O23: arithmetic and logic. Each instruction writes registers and advances, so its frame is
the one of `exec_writes`; what Vx and VF hold is read off the order of the two writes and the flags in numbers. -/

namespace Sys2Proof.Machine

open Sys2Proof.Safety

variable {s t : State} {i : Instr} {x y : Reg} {a b f : Byte}

/-! ### The frame, and the two orders of writes -/

/-- An instruction that changes the register file and advances changes no register but its destinations (R22, R72). -/
theorem onlyRegs_of_exec (h : exec i s = .next t) (ht : t = { s with v := t.v, pc := s.pc + 2 }) :
    OnlyRegs (destRegs i) s t := by
  have hpc : t.pc = s.pc + 2 := by rw [ht]
  have hmem : t.mem = s.mem := by rw [ht]
  exact ⟨(writes_of_exec h).regs, hpc ▸ ht, hpc, State.byteAt_congr hmem (exec_pacerKept h).params⟩

theorem State.resultThenFlag_reg_VF : (s.resultThenFlag x a f).reg VF = f := by
  rw [State.reg_resultThenFlag, if_pos rfl]

theorem State.resultThenFlag_reg_dest (hx : x ≠ VF) : (s.resultThenFlag x a f).reg x = a := by
  rw [State.reg_resultThenFlag, if_neg hx, if_pos rfl]

theorem State.flagThenResult_reg_dest : (s.flagThenResult x a f).reg x = a := by
  rw [State.reg_flagThenResult, if_pos rfl]

theorem State.flagThenResult_reg_VF (hx : x ≠ VF) : (s.flagThenResult x a f).reg VF = f := by
  rw [State.reg_flagThenResult, if_neg hx.symm, if_pos rfl]

/-! ### Arithmetic with a flag -/

theorem carryFlag_toNat : (carryFlag a b).toNat = if 256 ≤ a.toNat + b.toNat then 1 else 0 := by
  rw [carryFlag_eq, apply_ite BitVec.toNat]
  rfl

theorem noBorrowFlag_toNat : (noBorrowFlag a b).toNat = if b.toNat ≤ a.toNat then 1 else 0 := by
  rw [noBorrowFlag_eq, apply_ite BitVec.toNat]
  rfl

/-- Settles O20: the sum is written first and the carry of the operands last. -/
theorem addSetsCarry : Obligations.AddSetsCarry := by
  refine fun x y s => ⟨_, rfl, fun hx => ?_, ?_, onlyRegs_of_exec (i := .addReg x y) rfl rfl⟩
  · rw [State.advance_reg, State.resultThenFlag_reg_dest hx, sumByte_toNat]
  · rw [State.advance_reg, State.resultThenFlag_reg_VF, carryFlag_toNat]

/-- An instruction that writes `a - b` to Vx and then its no-borrow flag to VF leaves both, the flag where x is 15, and
changes nothing else (R107, R109, R113). -/
theorem exec_diffThenNoBorrow (hd : destRegs i = [x, VF])
    (he : exec i s = .next (s.resultThenFlag x (diffByte a b) (noBorrowFlag a b)).advance) :
    ∃ t, exec i s = .next t ∧ (x ≠ VF → ((t.reg x).toNat : Int) = (a.toNat - b.toNat : Int) % 256) ∧
      (t.reg VF).toNat = (if b.toNat ≤ a.toNat then 1 else 0) ∧ OnlyRegs [x, VF] s t := by
  refine ⟨_, he, fun hx => ?_, ?_, hd ▸ onlyRegs_of_exec he rfl⟩
  · rw [State.advance_reg, State.resultThenFlag_reg_dest hx, diffByte_toNat]
  · rw [State.advance_reg, State.resultThenFlag_reg_VF, noBorrowFlag_toNat]

/-- Settles O21: 8xy5 subtracts Vy from Vx, and 8xy7 Vx from Vy. -/
theorem subtractionsSetNoBorrow : Obligations.SubtractionsSetNoBorrow := fun _ _ _ =>
  ⟨exec_diffThenNoBorrow rfl rfl, exec_diffThenNoBorrow rfl rfl⟩

/-- Settles O22: the source is the one QUIRKS names, and the bit shifted out is written first and the shifted value
last. -/
theorem shiftsTakeTheQuirkSource : Obligations.ShiftsTakeTheQuirkSource := by
  intro x y s a ha
  have hsource : s.shiftSource x y = a := ha.symm
  refine
    ⟨⟨_, rfl, ?_, fun hx => ?_, onlyRegs_of_exec (i := .shrReg x y) rfl rfl⟩,
      ⟨_, rfl, ?_, fun hx => ?_, onlyRegs_of_exec (i := .shlReg x y) rfl rfl⟩⟩
  · rw [State.advance_reg, State.flagThenResult_reg_dest, shrByte_toNat, hsource]
  · rw [State.advance_reg, State.flagThenResult_reg_VF hx, shrFlag_toNat, hsource]
  · rw [State.advance_reg, State.flagThenResult_reg_dest, shlByte_toNat, hsource]
  · rw [State.advance_reg, State.flagThenResult_reg_VF hx, shlFlag_toNat, hsource]

/-! ### Loads, logic and the random draw -/

/-- A write of Vx and the default advance leave the written byte in Vx. -/
theorem State.setReg_advance_reg : (s.setReg x b).advance.reg x = b := State.reg_setReg_same

/-- Settles O18: each of the three writes its value to Vx alone. -/
theorem loadsAndImmediateAdd : Obligations.LoadsAndImmediateAdd := fun x y nn s =>
  ⟨decode_encode (i := .ldImm x nn) rfl, decode_encode (i := .addImm x nn) rfl, decode_encode (i := .ldReg x y) rfl,
    ⟨_, rfl, State.setReg_advance_reg, onlyRegs_of_exec (i := .ldImm x nn) rfl rfl⟩,
    ⟨_, rfl, by rw [State.setReg_advance_reg, sumByte_toNat], onlyRegs_of_exec (i := .addImm x nn) rfl rfl⟩,
    ⟨_, rfl, State.setReg_advance_reg, onlyRegs_of_exec (i := .ldReg x y) rfl rfl⟩⟩

/-- Settles O19: each of the three writes to Vx alone, and a bit of its value is that operation on the operands' bits. -/
theorem logicOperations : Obligations.LogicOperations := fun x y s =>
  ⟨decode_encode (i := .orReg x y) rfl, decode_encode (i := .andReg x y) rfl, decode_encode (i := .xorReg x y) rfl,
    ⟨_, rfl, onlyRegs_of_exec (i := .orReg x y) rfl rfl,
      fun _ _ => by rw [State.setReg_advance_reg, BitVec.getLsbD_or]⟩,
    ⟨_, rfl, onlyRegs_of_exec (i := .andReg x y) rfl rfl,
      fun _ _ => by rw [State.setReg_advance_reg, BitVec.getLsbD_and]⟩,
    ⟨_, rfl, onlyRegs_of_exec (i := .xorReg x y) rfl rfl,
      fun _ _ => by rw [State.setReg_advance_reg, BitVec.getLsbD_xor]⟩⟩

/-- Settles O23: the iteration's draw, masked, is written to Vx alone. -/
theorem randomDrawIsMasked : Obligations.RandomDrawIsMasked := fun x nn s =>
  ⟨_, rfl, onlyRegs_of_exec (i := .rnd x nn) rfl rfl,
    fun _ _ => by rw [State.setReg_advance_reg, BitVec.getLsbD_and]; rfl⟩

end Sys2Proof.Machine
end

section
/-! O42: the schedule of inputs. An instruction's own check does not look at it, and where the check holds the outcome is
built from the rest of the state, but for the poll, the event and the draw. -/

namespace Sys2Proof.Machine

open Sys2Proof.Safety

variable {s t : State} {i : Instr} {inps : List IterInput}

theorem setBytes_withInputs (s : State) (a : Nat) (bs : List Byte) :
    State.setBytes { s with inputs := inps } a bs = { s.setBytes a bs with inputs := inps } := by
  induction bs generalizing s a with
  | nil => rfl
  | cons b bs ih => exact ih (s.setByte a b) (a + 1)

/-- Where its own check holds, an instruction other than Ex9E, ExA1, Fx0A and Cxnn does not see the schedule of inputs
(R117, R157, R171). -/
theorem exec_withInputs (hkey : ∀ x, i ≠ .skp x ∧ i ≠ .sknp x ∧ i ≠ .ldVxK x) (hrnd : ∀ x nn, i ≠ .rnd x nn)
    (hf : faultOf i s = none) (h : exec i s = .next t) :
    exec i { s with inputs := inps } = .next { t with inputs := inps } := by
  cases i with
  | skp x => exact absurd rfl (hkey x).1
  | sknp x => exact absurd rfl (hkey x).2.1
  | ldVxK x => exact absurd rfl (hkey x).2.2
  | rnd x nn => exact absurd rfl (hrnd x nn)
  | ret =>
    cases h.symm.trans (exec_ret_of_noFault hf)
    exact exec_ret_of_noFault (s := { s with inputs := inps }) hf
  | addI x =>
    cases h.symm.trans (exec_addI_of_noFault hf)
    exact exec_addI_of_noFault (s := { s with inputs := inps }) hf
  | drw x y n =>
    obtain ⟨q, rfl, e⟩ := exec_drw_of_noFault hf
    obtain ⟨q', rfl, e'⟩ := exec_drw_of_noFault (s := { s with inputs := inps }) hf
    cases h.symm.trans e
    exact e'
  | ldB x =>
    cases h.symm.trans (exec_ldB_of_noFault hf)
    rw [exec_ldB_of_noFault (s := { s with inputs := inps }) hf, setBytes_withInputs]
    rfl
  | ldMemVx x =>
    have hlt : s.i.toNat + x.val < 4096 := by simpa [faultOf] using hf
    cases h.symm.trans (exec_ldMemVx_of_lt hlt)
    rw [exec_ldMemVx_of_lt (s := { s with inputs := inps }) hlt, setBytes_withInputs]
    rfl
  | ldVxMem x =>
    have hlt : s.i.toNat + x.val < 4096 := by simpa [faultOf] using hf
    cases h.symm.trans (exec_ldVxMem_of_lt hlt)
    exact exec_ldVxMem_of_lt (s := { s with inputs := inps }) hlt
  -- The others have one outcome, built from the registers, I, the timers, the stack, PC and the framebuffer.
  | _ =>
    cases h
    rfl

/-- Settles O42: no check of an instruction sees the schedule of inputs, nor does the record of a fault. -/
theorem inputsReachFourInstructions : Obligations.InputsReachFourInstructions := by
  intro i s t inps hkey hrnd h
  cases hf : faultOf i s with
  | none => exact exec_withInputs hkey hrnd hf h
  | some r =>
    cases h.symm.trans (exec_of_fault hf)
    exact exec_of_fault (s := { s with inputs := inps }) hf

end Sys2Proof.Machine
end

section
/-! O24, O25, O26, O27, O28: the address register and the memory transfers. Each outcome is a write of I or of a block of
bytes or registers, then the default advance; the lemmas say what I and the bytes read in numbers. -/

namespace Sys2Proof.Machine

open Sys2Proof.Safety

variable {s : State} {x : Reg}

/-! ### The values written -/

/-- The glyph address fits in 16 bits, so it is not reduced (R122). -/
theorem glyphAddress_toNat (b : Byte) : (glyphAddress b).toNat = b.toNat * 5 := by
  have := b.isLt
  simp only [glyphAddress, Config.glyphBytes, BitVec.toNat_ofNat]
  omega

/-- After a block inside memory I + x + 1 fits in 16 bits, so it is not reduced (R124, R125). -/
theorem iAfterBlock_toNat (h : s.i.toNat + x.val < 4096) :
    (s.iAfterBlock x).toNat = if s.params.quirks = true then s.i.toNat else s.i.toNat + x.val + 1 := by
  have hfits : (BitVec.ofNat 16 (s.i.toNat + x.val + 1)).toNat = s.i.toNat + x.val + 1 := by
    rw [BitVec.toNat_ofNat]
    omega
  rw [State.iAfterBlock, apply_ite BitVec.toNat, hfits]

/-- The byte `k` places after the first holds the decimal digit of weight `10 ^ (2 - k)` (R123, D10). -/
theorem State.byteAt_setBytes_bcdDigits {a k : Nat} {b : Byte} (hk : k < 3) :
    ((s.setBytes a (bcdDigits b)).byteAt (a + k)).toNat = b.toNat / 10 ^ (2 - k) % 10 := by
  have := b.isLt
  rw [State.byteAt_setBytes_inside (bs := bcdDigits b) hk]
  match k, hk with
  | 0, _ | 1, _ | 2, _ => exact (BitVec.toNat_ofNat _ _).trans (by omega)

/-! ### The obligations -/

/-- Settles O26: the three stored digits make up Vx again. -/
theorem decimalDigitsAreStored : Obligations.DecimalDigitsAreStored := by
  refine fun x s => ⟨fun h => ?_, fun h => exec_of_fault (i := .ldB x) (if_pos h)⟩
  have hf : faultOf (.ldB x) s = none := if_neg (not_le.2 h)
  have digit : ∀ k < 3, ((s.setBytes s.i.toNat (bcdDigits (s.reg x))).advance.byteAt (s.i.toNat + k)).toNat =
      (s.reg x).toNat / 10 ^ (2 - k) % 10 := by
    intro k hk
    rw [State.advance_byteAt, State.byteAt_setBytes_bcdDigits hk]
  refine ⟨_, exec_ldB_of_noFault hf, ?_, fun k hk => ?_, fun b hb => ?_, by simp, ?_⟩
  · have h0 := digit 0 (by omega)
    have h1 := digit 1 (by omega)
    have h2 := digit 2 (by omega)
    have := (s.reg x).isLt
    rw [Nat.add_zero] at h0
    rw [h0, h1, h2]
    omega
  · rw [digit k hk]
    omega
  · rw [State.advance_byteAt]
    exact State.byteAt_setBytes_outside hb
  · rw [State.setBytes_eq]
    rfl

/-- Settles O27: every stored register reads back at its own place, and the block covers no other byte. -/
theorem registersAreStored : Obligations.RegistersAreStored := by
  refine fun x s => ⟨fun h => ?_, fun h => exec_of_fault (i := .ldMemVx x) (if_pos h)⟩
  refine ⟨_, exec_ldMemVx_of_lt h, fun r hr => ?_, fun b hb => ?_, iAfterBlock_toNat h, by simp, ?_⟩
  · rw [State.advance_byteAt, State.setI_byteAt, State.byteAt_setBytes_regsUpTo hr]
  · rw [State.advance_byteAt, State.setI_byteAt, State.byteAt_setBytes_outside (by rwa [State.regsUpTo_length])]
  · rw [State.setBytes_eq]
    rfl

/-- Settles O28: the registers of the block hold the bytes at their places, and the others are not written. -/
theorem registersAreLoaded : Obligations.RegistersAreLoaded := by
  refine fun x s => ⟨fun h => ?_, fun h => exec_of_fault (i := .ldVxMem x) (if_pos h)⟩
  refine ⟨_, exec_ldVxMem_of_lt h, fun r hr => ?_, fun r hr => ?_, iAfterBlock_toNat h, rfl, rfl, fun _ => rfl⟩
  · rw [State.advance_reg, State.setI_reg, State.reg_setRegsUpTo_range hr]
  · rw [State.advance_reg, State.setI_reg, State.reg_setRegsUpTo, if_neg (not_le.2 hr)]

/-- Settles O24: both write I alone and advance. -/
theorem indexIsLoaded : Obligations.IndexIsLoaded := fun nnn x s =>
  ⟨decode_encode (i := .ldI nnn) rfl, decode_encode (i := .ldF x) rfl,
    ⟨_, rfl, addrWord_toNat nnn, rfl, rfl, fun _ => rfl⟩,
    ⟨_, rfl, glyphAddress_toNat (s.reg x), rfl, rfl, fun _ => rfl⟩⟩

/-- Settles O25: a sum that fits in 16 bits is not reduced, and a larger one fails the instruction's own check. -/
theorem addToIndexOrOverflow : Obligations.AddToIndexOrOverflow := by
  refine fun x s => ⟨fun h => ?_, fun h => exec_of_fault (i := .addI x) (if_pos h)⟩
  have hf : faultOf (.addI x) s = none := if_neg (not_lt.2 h)
  refine ⟨_, exec_addI_of_noFault hf, ?_, rfl, rfl, fun _ => rfl⟩
  exact (BitVec.toNat_ofNat _ _).trans (Nat.mod_eq_of_lt (by omega))

end Sys2Proof.Machine
end

section
/-! O32, O33, O34, O31: the display. `Draws` says once what a draw inside memory leaves, from `draw_toggles`; redrawing
and wrapping then speak of toggled sets alone, and of what the set a sprite covers depends on. -/

namespace Sys2Proof.Machine

open Sys2Proof.Safety

variable {s t u : State} {x y : Reg} {n : RowCount}

/-! ### Toggled sets -/

section
variable {S : Fin 32 → Fin 64 → Prop} {p q q' : Framebuffer × Bool} {f : Framebuffer}

/-- The set toggled determines the framebuffer and the collision. -/
theorem Toggles.unique (h : Toggles S p q) (k : Toggles S p q') : q = q' := by
  refine Prod.ext (framebuffer_ext fun r c => ?_) (Bool.eq_iff_iff.2 (h.collides.trans k.collides.symm))
  by_cases hs : S r c
  · rw [h.on r c hs, k.on r c hs]
  · rw [h.off r c hs, k.off r c hs]

/-- Toggling a set twice restores every cell (R142). -/
theorem Toggles.twice_fb (h : Toggles S p q) (k : Toggles S (q.1, false) q') : q'.1 = p.1 := by
  refine framebuffer_ext fun r c => ?_
  by_cases hs : S r c
  · rw [k.on r c hs, h.on r c hs, Bool.not_not]
  · rw [k.off r c hs, h.off r c hs]

/-- Toggling a set again collides exactly where the first time turned a cell on (R142). -/
theorem Toggles.twice_collides (h : Toggles S p q) (k : Toggles S (q.1, false) q') :
    q'.2 = true ↔ ∃ r c, cell p.1 r c = false ∧ cell q.1 r c = true := by
  have turnedOn (r : Fin 32) (c : Fin 64) :
      S r c ∧ cell q.1 r c = true ↔ cell p.1 r c = false ∧ cell q.1 r c = true := by
    by_cases hs : S r c
    · simp [hs, h.on r c hs]
    · simp [hs, h.off r c hs]
  simp only [k.collides, Bool.false_eq_true, false_or, turnedOn]

end

/-! ### The cells a sprite covers -/

/-- The cells covered depend on the sprite bytes and on the coordinates modulo the dimensions (R138). -/
theorem covers_congr {bytes bytes' : Nat → Byte} {x0 x1 y0 y1 k : Nat} (hb : ∀ j, bytes' j = bytes j)
    (hx : x1 % 64 = x0 % 64) (hy : y1 % 32 = y0 % 32) : Covers bytes' x1 y1 k = Covers bytes x0 y0 k := by
  have hcol (col : Nat) : (x1 + col) % 64 = (x0 + col) % 64 := Nat.ModEq.add_right col hx
  have hrow (row : Nat) : (y1 + row) % 32 = (y0 + row) % 32 := Nat.ModEq.add_right row hy
  funext r c
  simp only [Covers, hb, hcol, hrow]

/-! ### A draw inside memory -/

/-- From `s` to `t` Dxyn has drawn, `hit` saying whether a cell collided: the cells covered are toggled, VF holds the
collision, the cycle signals redraw and advances, and nothing else changes (R136, R137, R140, R141). -/
structure Draws (x y : Reg) (n : RowCount) (s t : State) (hit : Bool) : Prop where
  toggles : Toggles (DrwCovers x y n s) (s.fb, false) (t.fb, hit)
  flag : t.reg VF = flagByte hit
  frame : t = { s with v := t.v, fb := t.fb, result := .completed true, pc := s.pc + 2 }

theorem flagByte_eq_one {b : Bool} : flagByte b = 1 ↔ b = true := by cases b <;> decide

/-- Dxyn passes its own check where every sprite byte is inside memory (R140). -/
theorem faultOf_drw_eq_none (h : n.val = 0 ∨ s.i.toNat + n.val ≤ 4096) : faultOf (.drw x y n) s = none :=
  if_neg (by omega)

/-- Dxyn fails its own check where a sprite byte is outside memory (D6). -/
theorem exec_drw_outside (h : 0 < n.val ∧ 4096 < s.i.toNat + n.val) :
    exec (.drw x y n) s = .next (haltedBy (.drw x y n) .outOfBoundsAccess (some (max s.i.toNat 4096)) s) :=
  exec_of_fault (i := .drw x y n) (if_pos (by omega))

/-- Dxyn draws where every sprite byte is inside memory (R140). -/
theorem exec_drw_draws (h : n.val = 0 ∨ s.i.toNat + n.val ≤ 4096) :
    ∃ t hit, exec (.drw x y n) s = .next t ∧ Draws x y n s t hit := by
  obtain ⟨q, rfl, e⟩ := exec_drw_of_noFault (x := x) (y := y) (faultOf_drw_eq_none h)
  refine ⟨_, _, e, ?_, State.reg_setReg_same, rfl⟩
  exact draw_toggles s.fb (s.reg x).toNat (s.reg y).toNat n.val (fun k => s.byteAt (s.i.toNat + k)) (by omega)

/-- What Dxyn has drawn, read off its one next state. -/
theorem draws_of_exec (h : n.val = 0 ∨ s.i.toNat + n.val ≤ 4096) (he : exec (.drw x y n) s = .next t) :
    ∃ hit, Draws x y n s t hit := by
  obtain ⟨t', hit, e, hd⟩ := exec_drw_draws (x := x) (y := y) h
  cases he.symm.trans e
  exact ⟨hit, hd⟩

/-- VF is 1 exactly where a cell covered was lit (R137). -/
theorem Draws.flag_eq_one {hit : Bool} (h : Draws x y n s t hit) :
    t.reg VF = 1 ↔ ∃ r c, DrwCovers x y n s r c ∧ cell s.fb r c = true := by
  rw [h.flag, flagByte_eq_one, h.toggles.collides]
  simp

/-- A draw reads memory and writes none (R58, R140). -/
theorem Draws.memKept {hit : Bool} (h : Draws x y n s t hit) : MemKept s t :=
  State.byteAt_congr (by rw [h.frame]) (by rw [h.frame])

/-! ### The obligations -/

/-- Settles O32: a draw inside memory toggles the cells covered, and one that leaves memory fails Dxyn's own check. -/
theorem drawTogglesCoveredCells : Obligations.DrawTogglesCoveredCells := by
  refine fun x y n s => ⟨fun h => ?_, exec_drw_outside⟩
  obtain ⟨t, hit, e, hd⟩ := exec_drw_draws (x := x) (y := y) h
  have hflag : t.reg VF = 1 ∨ t.reg VF = 0 := by rw [hd.flag]; cases hit <;> decide
  have hresult : t.result = .completed true := by rw [hd.frame]
  have hpc : t.pc = s.pc + 2 := by rw [hd.frame]
  refine ⟨t, e, hd.toggles.on, hd.toggles.off, hflag, hd.flag_eq_one, (writes_of_exec e).regs, hresult, hpc, ?_,
    hd.memKept⟩
  rw [hresult, hpc]
  exact hd.frame

/-- Settles O33: the second draw covers the same cells, since the first one changed neither I, memory nor the
coordinates. -/
theorem drawTwiceRestores : Obligations.DrawTwiceRestores := by
  intro x y n s t u hb hst hx hy htu
  obtain ⟨hit, hd⟩ := draws_of_exec hb hst
  have hi : t.i = s.i := by rw [hd.frame]
  obtain ⟨hit', hd'⟩ := draws_of_exec (by rwa [hi]) htu
  have hcovers : DrwCovers x y n t = DrwCovers x y n s :=
    covers_congr (fun k => by rw [hi, hd.memKept]) (by rw [hx]) (by rw [hy])
  have again : Toggles (DrwCovers x y n s) (t.fb, false) (u.fb, hit') := hcovers ▸ hd'.toggles
  refine ⟨hd.toggles.twice_fb again, ?_⟩
  rw [hd'.flag, flagByte_eq_one]
  exact hd.toggles.twice_collides again

/-- Settles O34: inside memory the two draws toggle the same cells; outside, both leave the same record. -/
theorem drawWrapsCoordinates : Obligations.DrawWrapsCoordinates := by
  intro x y n s t u v hx hy hst hu
  by_cases hb : n.val = 0 ∨ s.i.toNat + n.val ≤ 4096
  · obtain ⟨hit, hd⟩ := draws_of_exec hb hst
    obtain ⟨hit', hd'⟩ := draws_of_exec (s := { s with v := v }) hb hu
    have hcovers : DrwCovers x y n { s with v := v } = DrwCovers x y n s := covers_congr (fun _ => rfl) hx hy
    have same : Toggles (DrwCovers x y n s) (s.fb, false) (u.fb, hit') := hcovers ▸ hd'.toggles
    obtain ⟨hfb, hhit⟩ := Prod.mk.inj (same.unique hd.toggles)
    refine ⟨hfb, ?_, fun _ => ?_⟩
    · rw [hd'.frame, hd.frame]
    · rw [hd'.flag, hd.flag, hhit]
  · have hout : 0 < n.val ∧ 4096 < s.i.toNat + n.val := by omega
    cases hst.symm.trans (exec_drw_outside hout)
    cases hu.symm.trans (exec_drw_outside (s := { s with v := v }) hout)
    exact ⟨rfl, rfl, fun h => absurd h hb⟩

/-- Settles O31: every cell of the blank framebuffer is unlit, and its word is the encoding of CLS. -/
theorem clearUnlightsEveryCell : Obligations.ClearUnlightsEveryCell := fun _ =>
  ⟨decode_encode (i := .cls) rfl, _, rfl, cell_blank, rfl, rfl, rfl, fun _ => rfl⟩

end Sys2Proof.Machine
end

section
/-! O35, O36, O37, O48: the keypad and the timers. The poll decides a skip, a timer moves to or from a register, and Fx0A
takes the event of its own iteration; without one the cycle is blocked, and the pacer's part of that iteration depends on
KEYWAIT_STALLS_TIMERS alone. -/

namespace Sys2Proof.Machine

open Sys2Proof.Safety

variable {s : State} {w : Word} {x : Reg} {ms : Rat}

/-! ### The poll -/

/-- The poll names Vx exactly where a key is pressed whose number Vx holds (R151, R152). -/
theorem keyMatches_iff : s.keyMatches x = true ↔ ∃ k, s.input.keyPressed = some k ∧ k.val = (s.reg x).toNat := by
  unfold State.keyMatches
  cases s.input.keyPressed with
  | none => simp
  | some k => simp

/-- A value of 16 or more names no key (R150, R151). -/
theorem keyMatches_eq_false_of_le (h : 16 ≤ (s.reg x).toNat) : s.keyMatches x = false := by
  refine Bool.eq_false_iff.2 fun hm => ?_
  obtain ⟨k, -, hk⟩ := keyMatches_iff.1 hm
  omega

/-- Settles O35: Ex9E skips on the poll, ExA1 on its negation, and a skip sets PC alone. -/
theorem keySkipsFollowThePoll : Obligations.KeySkipsFollowThePoll := by
  refine fun x s => ⟨fun h => ?_, fun h => ?_, fun h => ?_⟩
  · have hm : s.keyMatches x = true := keyMatches_iff.2 h
    exact ⟨⟨_, rfl, onlyPc_withPc s _, if_pos hm⟩, ⟨_, rfl, onlyPc_withPc s _, if_neg (by simp [hm])⟩⟩
  · have hm : ¬s.keyMatches x = true := mt keyMatches_iff.1 h
    exact ⟨⟨_, rfl, onlyPc_withPc s _, if_neg hm⟩, ⟨_, rfl, onlyPc_withPc s _, if_pos (by simp [hm])⟩⟩
  · exact ⟨_, rfl, if_neg (by simp [keyMatches_eq_false_of_le h])⟩

/-! ### The timer moves and the key wait -/

/-- Settles O36: each of the three is one write and the default advance. -/
theorem timersAreMoved : Obligations.TimersAreMoved := fun x _ =>
  ⟨decode_encode (i := .ldVxDt x) rfl, decode_encode (i := .ldDtVx x) rfl, decode_encode (i := .ldStVx x) rfl,
    ⟨_, rfl, State.setReg_advance_reg, onlyRegs_of_exec (i := .ldVxDt x) rfl rfl⟩,
    ⟨_, rfl, rfl, rfl, rfl, fun _ => rfl⟩, ⟨_, rfl, rfl, rfl, rfl, rfl, fun _ => rfl⟩⟩

/-- A key number fits in a register (R154). -/
theorem keyByte_toNat (k : Key) : (keyByte k).toNat = k.val := by
  rw [keyByte, BitVec.toNat_ofNat]
  omega

/-- Settles O37: with an event Fx0A writes its key and advances, without one it is blocked. -/
theorem keyWaitCompletesOnEvent : Obligations.KeyWaitCompletesOnEvent := by
  refine fun x s => ⟨fun k hk => ?_, exec_ldVxK_of_no_event⟩
  have he := exec_ldVxK_of_event (x := x) hk
  exact ⟨_, he, by rw [State.setReg_advance_reg, keyByte_toNat], onlyRegs_of_exec he rfl⟩

/-! ### A blocked iteration -/

/-- A blocked cycle stalls exactly under KEYWAIT_STALLS_TIMERS (R184). -/
theorem State.block_stalls (s : State) : s.block.stalls = s.params.keywaitStallsTimers := rfl

/-- After a blocked cycle the pacer returns early under KEYWAIT_STALLS_TIMERS and accumulates otherwise; a blocked cycle
reports no redraw (R178, R179, R184). -/
theorem pace_block (hr : s.status = .running) :
    pace ms s.block = if s.params.keywaitStallsTimers then s.block else accumulate ms s.block := by
  have hn : noteRedraw s.block = s.block := rfl
  rw [pace, State.block_status, hr, State.block_stalls, hn]

/-- A continuing step that fetches Fx0A with no event runs a blocked cycle, and then stalls or accumulates (R71, R154,
R178, R184). -/
theorem step_of_blocked (hc : Continues s) (hf : s.fetch = some w) (hd : decode w = .ok (.ldVxK x))
    (hk : s.input.keyEvent = none) :
    step s = .next (if s.params.keywaitStallsTimers then s.beginCycle.block
      else accumulate (elapsedMs s.input) s.beginCycle.block).endIteration := by
  have hcycle : cycle s.beginCycle = .next s.beginCycle.block :=
    (cycle_of_fetch (s := s.beginCycle) hf hd).trans (exec_ldVxK_of_no_event hk)
  have hrun : s.beginCycle.status = .running := (runEnd_eq_none.1 hc.1).1
  rw [step_of_cycle hc hcycle, pace_block hrun, State.beginCycle_params]

/-- A timer counted down by ticks and not below 0 stays a byte (R182). -/
theorem byte_countdown_toNat (b : Byte) (k : Nat) : (BitVec.ofNat 8 (b.toNat - k)).toNat = b.toNat - k := by
  rw [BitVec.toNat_ofNat]
  omega

/-- Accumulating lowers both timers by the whole frames of the lag and the time, and leaves the rest as the lag (R180,
R182, R183). -/
theorem accumulate_timers (h : 0 ≤ s.lag + ms) :
    (accumulate ms s).dt.toNat = s.dt.toNat - framesIn (s.lag + ms) ∧
      (accumulate ms s).st.toNat = s.st.toNat - framesIn (s.lag + ms) ∧
      (accumulate ms s).lag = s.lag + ms - framesIn (s.lag + ms) * (1000 / 60) := by
  have hframe : frameMs = 1000 / 60 := by rw [frameMs_eq]; norm_num
  rw [framesIn_eq_ticksDue, accumulate_eq s h, ticks_eq, hframe]
  exact ⟨byte_countdown_toNat _ _, byte_countdown_toNat _ _, rfl⟩

/-- Settles O48: the blocked cycle changes its result alone, and the pacer then stalls or accumulates. -/
theorem blockedIterationAndTheTimers : Obligations.BlockedIterationAndTheTimers := by
  intro s w x hc hf hd hk h0
  have hstep := step_of_blocked hc hf hd hk
  refine ⟨fun hstall => ?_, fun hstall => ?_⟩
  · rwa [if_pos hstall] at hstep
  · rw [if_neg (by simp [hstall])] at hstep
    have hkept : EngineKept s.beginCycle.block (accumulate (elapsedMs s.input) s.beginCycle.block) :=
      accumulate_engineKept _ _
    obtain ⟨hdt, hst, hlag⟩ :=
      accumulate_timers (s := s.beginCycle.block) (add_nonneg h0 (elapsedMs_nonneg s.input))
    exact ⟨_, hstep, hdt, hst, hlag, congrArg State.endIteration hkept⟩

end Sys2Proof.Machine
end

section
/-! O44, O45, O46, O9: the pacer's time. A time is whole frames and a rest below one frame, the frames add up whatever
pieces they come in, and the quit takes neither a cycle nor time. -/

namespace Sys2Proof.Machine

open Sys2Proof.Safety

variable {s : State} {ms rest : Rat}

/-- FRAME_MS as the spec writes it, a sixtieth of a second (R183). -/
theorem frameMs_eq_sixtieth : frameMs = 1000 / 60 := by
  rw [frameMs_eq]
  norm_num

/-! ### The redraw and the outputs of one iteration -/

/-- After a cycle a redraw is pending from before, or from this cycle (R179). -/
theorem noteRedraw_redrawPending (s : State) :
    (noteRedraw s).redrawPending = (s.redrawPending || s.result == .completed true) := by
  unfold noteRedraw
  cases s.result with
  | completed redraw => cases redraw <;> simp
  | blocked => simp

/-- Any whole frame clears a pending redraw; it is presented at the first, and the tone sounds at the one that takes ST
from 1 to 0 (R180 to R182). -/
theorem accumulate_redraw_outputs (h : 0 ≤ s.lag + ms) :
    (accumulate ms s).redrawPending = (s.redrawPending && framesIn (s.lag + ms) == 0) ∧
      (accumulate ms s).outputs =
        s.outputs ++ (if s.redrawPending ∧ 0 < framesIn (s.lag + ms) then [.present s.fb] else []) ++
          (if 1 ≤ s.st.toNat ∧ s.st.toNat ≤ framesIn (s.lag + ms) then [.emitTone] else []) := by
  rw [framesIn_eq_ticksDue, accumulate_eq s h, ticks_eq]
  exact ⟨rfl, rfl⟩

/-- Settles O44: after such a cycle the pacer notes the redraw and accumulates, and what each field then holds is known. -/
theorem pacerDrainsWholeFrames : Obligations.PacerDrainsWholeFrames := by
  rintro s ms n pending hrun hstall h0 hms rfl rfl
  have hpace : pace ms s = accumulate ms (noteRedraw s) := by
    simp only [pace, hrun, hstall, Bool.false_eq_true, if_false]
  have hnoted := noteRedraw_eq s
  rw [noteRedraw_redrawPending] at hnoted
  have hsum : 0 ≤ (noteRedraw s).lag + ms := by
    rw [hnoted]
    exact add_nonneg h0 hms
  obtain ⟨hdt, hst, hlag⟩ := accumulate_timers hsum
  obtain ⟨hlo, hhi⟩ := accumulate_lag_bounds _ hsum
  obtain ⟨hpending, houtputs⟩ := accumulate_redraw_outputs hsum
  rw [← hpace, hnoted] at hdt hst hlag hpending houtputs
  rw [← hpace] at hlo hhi
  exact ⟨_, rfl, hlag, hlo, frameMs_eq_sixtieth ▸ hhi, hdt, hst, hpending, houtputs, pace_engineKept ms s⟩

/-! ### Time in pieces -/

theorem ticks_add (m n : Nat) (s : State) : ticks (m + n) s = ticks n (ticks m s) := by
  induction m generalizing s with
  | zero => rw [Nat.zero_add, ticks]
  | succ m ih => rw [Nat.succ_add, ticks, ticks, ih]

/-- Where the lag and the time are `n` frames and a rest below one, accumulating makes `n` ticks and leaves the rest
(R183). -/
theorem accumulate_frames {n : Nat} (h0 : 0 ≤ rest) (h1 : rest < frameMs) (h : s.lag + ms = rest + n * frameMs) :
    accumulate ms s = { ticks n s with lag := rest } := by
  have hn : (0 : Rat) ≤ n * frameMs := mul_nonneg (Nat.cast_nonneg n) frameMs_pos.le
  rw [accumulate_eq s (h ▸ add_nonneg h0 hn), h, ticksDue_add_frames h0 h1, add_sub_cancel_right]

/-- The lag and the time are always some number of frames and a rest, so accumulating makes those frames' ticks. -/
theorem exists_accumulate_frames (h : 0 ≤ s.lag + ms) :
    ∃ (n : Nat) (rest : Rat), 0 ≤ rest ∧ rest < frameMs ∧ s.lag + ms = rest + n * frameMs ∧
      accumulate ms s = { ticks n s with lag := rest } := by
  have hle := ticksDue_le h
  have hlt := lt_ticksDue_succ (s.lag + ms)
  exact ⟨_, _, by linarith, by linarith, (sub_add_cancel _ _).symm, accumulate_eq s h⟩

/-- No time makes no tick where the lag is below one frame. -/
theorem accumulate_zero (h0 : 0 ≤ s.lag) (h1 : s.lag < frameMs) : accumulate 0 s = s := by
  rw [accumulate_frames (n := 0) h0 h1 (by simp), ticks]

/-- Two pieces of time accumulate as their sum: the frames of both are made one after the other (R183). -/
theorem accumulate_accumulate {a b : Rat} (ha : 0 ≤ s.lag + a) (hb : 0 ≤ b) :
    accumulate b (accumulate a s) = accumulate (a + b) s := by
  obtain ⟨m, r, hr, -, hma, ea⟩ := exists_accumulate_frames ha
  rw [ea]
  obtain ⟨n, r', hr', hlt, hnb, eb⟩ :=
    exists_accumulate_frames (s := { ticks m s with lag := r }) (add_nonneg hr hb)
  have hsum : s.lag + (a + b) = r' + ((m + n : Nat) : Rat) * frameMs := by
    push_cast
    linarith
  rw [eb, accumulate_frames hr' hlt hsum, ticks_setLag, ticks_add]

/-- Settles O45, by induction on the pieces: the first is merged into the time that follows it. -/
theorem timeMayBeAccumulatedInPieces : Obligations.TimeMayBeAccumulatedInPieces := by
  intro s pieces h0 h1 hp
  rw [← frameMs_eq_sixtieth] at h1
  induction pieces generalizing s with
  | nil => exact (accumulate_zero h0 h1).symm
  | cons ms rest ih =>
    obtain ⟨hms, hrest⟩ := List.forall_mem_cons.1 hp
    have hsum : 0 ≤ s.lag + ms := add_nonneg h0 hms
    obtain ⟨hlo, hhi⟩ := accumulate_lag_bounds s hsum
    rw [List.foldl_cons, ih _ hlo hhi hrest, accumulate_accumulate hsum (List.sum_nonneg hrest), List.sum_cons]

/-- Settles O46: 1000 ms are 60 frames and no rest. -/
theorem oneSecondIsSixtyTicks : Obligations.OneSecondIsSixtyTicks := by
  intro s hlag
  have hsecond : s.lag + 1000 = 0 + (60 : Nat) * frameMs := by
    rw [hlag, frameMs_eq]
    norm_num
  rw [accumulate_frames le_rfl frameMs_pos hsecond, ticks_eq]
  exact ⟨byte_countdown_toNat _ _, byte_countdown_toNat _ _, rfl⟩

/-! ### The quit -/

/-- Settles O9: the iteration takes the quit, its run has then ended by quit, and an ended run has no step. -/
theorem quitEndsTheRun : Obligations.QuitEndsTheRun := by
  intro s hr hq
  have hstep : step s = .next (quitRun s).endIteration := by
    simp only [step, iterate, hr, hq, if_true]
  have hend : (quitRun s).endIteration.runEnd = some .quit := by
    have hrun : (quitRun s).endIteration.status = .running := (runEnd_eq_none.1 hr).1
    simp only [State.runEnd, hrun]
    rfl
  refine ⟨_, hstep, hend, fun u hu => ?_, rfl⟩
  rw [step_next_iff.1 ⟨u, hu⟩] at hend
  cases hend

end Sys2Proof.Machine
end

section
/-! O52, O56: the loader. A program that fits is one run of byte writes, one that does not is a status and an output; what
each leaves, and that the invariant survives both, follow from these two equations. -/

namespace Sys2Proof.Machine

open Sys2Proof.Safety

variable {s : State} {program : List Byte}

/-- A program that does not fit halts the engine with its record and puts out the no-start end (R201, R186). -/
theorem load_of_gt (h : 3584 < program.length) :
    load program s = { s with status := .halted (tooLargeRecord program.length),
                              outputs := [.runEnd (.noStart (tooLargeRecord program.length))] } :=
  if_pos h

/-- No step follows a failed load: the engine is not running (R36, R186). -/
theorem step_load_ne_next_of_gt (h : 3584 < program.length) (t : State) : step (load program s) ≠ .next t := by
  intro ht
  have hrun := (runEnd_eq_none.1 (step_next_iff.1 ⟨t, ht⟩)).1
  rw [load_of_gt h] at hrun
  cases hrun

/-- Settles O52: the bytes of the one load, and the status of the other. -/
theorem loaderCopiesOrFails : Obligations.LoaderCopiesOrFails := by
  refine fun program s => ⟨fun h => ?_, fun h => ⟨?_, step_load_ne_next_of_gt h⟩⟩
  · rw [load_of_le h]
    exact ⟨fun _ hk => State.byteAt_setBytes_inside hk, fun _ hb => State.byteAt_setBytes_outside hb,
      State.setBytes_eq _ _ _⟩
  · exact ⟨tooLargeRecord program.length, rfl, rfl, rfl, rfl, load_of_gt h⟩

/-- The record of a failed load has the form of R167, whatever the PC (log 9). -/
theorem recordOk_tooLargeRecord {len : Nat} (pc : Word) (h : 3584 < len) : recordOk pc (tooLargeRecord len) :=
  ⟨rfl, rfl, len, rfl, h⟩

/-- A load keeps the invariant where no quit was taken: the program that fits changes canonical memory only, the failed
load halts with a record of its form. -/
theorem load_keeps_inv (program : List Byte) (h : Inv s) (hq : s.hasQuit = false) : Inv (load program s) := by
  have hm := load_wf (program := program) h.mem
  obtain hlen | hlen := le_or_gt program.length 3584
  · rw [load_of_le hlen] at hm ⊢
    rw [State.setBytes_eq] at hm ⊢
    exact { h with mem := hm }
  · rw [load_of_gt hlen]
    exact
      { h with
        record := by
          rintro r ⟨⟩
          exact recordOk_tooLargeRecord s.pc hlen
        one_end := by simp [hq] }

/-- Settles O56: the reset state meets the invariant, and the load keeps it. -/
theorem bootMeetsInvariant : Obligations.BootMeetsInvariant :=
  fun p program => load_keeps_inv program (initial_inv p) rfl

end Sys2Proof.Machine
end
